-- ==== Sys2Proof/Word.lean ====
section
/-! DEFINITION. The word types of the block (00_scope.md R8, R9, R10): bytes, 32-bit state words, the 16-word
state and the 64-byte block. -/

namespace Sys2Proof

/-- One byte of a payload, of an output or of the keystream buffer. -/
abbrev Byte := BitVec 8

/-- One 32-bit state word; `+` on it is the spec's `+32` (R10). -/
abbrev Word := BitVec 32

/-- The 16 words of a state: "exactly 16 unsigned 32-bit words" (10_state.md R20). -/
abbrev Words := Vector Word 16

/-- The 64 bytes of a keystream block (00_scope.md R8). -/
abbrev Block := Vector Byte 64

end Sys2Proof
end

