-- ==== Sys2Proof/Machine/Bytes.lean ====
section
/-! DEFINITION. Byte order, decided once for the whole model (00_scope.md R10, 20_memory.md R51 to R54): words and
64-bit operands are built from bytes little-endian, and taken apart little-endian. -/

namespace Sys2Proof.Machine

/-- Byte `i` of a byte string, counted from 0 in stream order (00_scope.md R9). A byte the string does not have reads 0
(log 11: no meaning reads one, since every meaning checks the payload's length first). -/
def byteAt (s : List Byte) (i : Nat) : Byte := s.getD i 0

/-- `le32(s, j) = s[4j] | s[4j+1] << 8 | s[4j+2] << 16 | s[4j+3] << 24` (00_scope.md R10). -/
def le32 (s : List Byte) (j : Nat) : Word :=
  (byteAt s (4 * j)).setWidth 32
    ||| (byteAt s (4 * j + 1)).setWidth 32 <<< 8
    ||| (byteAt s (4 * j + 2)).setWidth 32 <<< 16
    ||| (byteAt s (4 * j + 3)).setWidth 32 <<< 24

/-- `le64(s, j) = {le32(s, 2j+1), le32(s, 2j)}`, the first in the upper bits (00_scope.md R10). -/
def le64 (s : List Byte) (j : Nat) : BitVec 64 := le32 s (2 * j + 1) ++ le32 s (2 * j)

/-- `bytes_le32(w)`: `w[7:0], w[15:8], w[23:16], w[31:24]` (00_scope.md R10). -/
def bytesLe32 (w : Word) : List Byte :=
  [w.extractLsb' 0 8, w.extractLsb' 8 8, w.extractLsb' 16 8, w.extractLsb' 24 8]

/-- The 8 bytes of a 64-bit operand, least significant byte first (20_memory.md R53). -/
def bytesLe64 (n : BitVec 64) : List Byte :=
  bytesLe32 (n.extractLsb' 0 32) ++ bytesLe32 (n.extractLsb' 32 32)

/-- The lowest `k` bytes of a number, least significant byte first. -/
def natBytes : Nat → Nat → List Byte
  | 0, _ => []
  | k + 1, n => BitVec.ofNat 8 n :: natBytes k (n / 256)

end Sys2Proof.Machine
end

