-- ==== Sys2Proof/Syntax.lean ====
section
/-! DEFINITION. The commands of the block, one constructor per row of spec/opcode_table.json (30_encoding.md R74).
A command's operands in the header are its constructor's arguments; its payload is not part of the header and
reaches the meaning through State (00_scope.md R12). Every field is an unsigned number (R73). -/

namespace Sys2Proof

/-- The six commands with the header fields that `Decode` hands on (30_encoding.md R76). -/
inductive Instr where
  /-- `SETKEY(RND, LEN)`: load a key of `len` bytes, with `rnd` rounds (41_state_init.md R100). -/
  | setkey (rnd len : Nat)
  /-- `RESYNC(LEN)`: set the nonce (`len` IV bytes) and the initial block (41_state_init.md R110). -/
  | resync (len : Nat)
  /-- `COMBINE(ENC, LEN)`: encrypt `len` bytes (43_keystream_combiner.md R160). -/
  | combineEnc (len : Nat)
  /-- `COMBINE(DEC, LEN)`: decrypt `len` bytes (43_keystream_combiner.md R161). -/
  | combineDec (len : Nat)
  /-- `COMBINE(GEN, LEN)`: output `len` keystream bytes (43_keystream_combiner.md R162). -/
  | combineGen (len : Nat)
  /-- `SEEK`: set the counter to a block index (44_seek.md R200). -/
  | seek
deriving DecidableEq, Repr

/-- Why a header is ILLEGAL, after the classes that 30_encoding.md R77 lists. DESIGN CHOICE (log 18): the names are the
model's; the block answers each with the same status. -/
inductive Illegal where
  /-- opcode 0 or 5 to 15 -/
  | reservedOpcode
  /-- `SUB` 3 to 15 with opcode 3, non-zero `SUB` with opcodes 1, 2 and 4 -/
  | reservedSub
  /-- non-zero `RND` with opcodes 2, 3 and 4 -/
  | reservedRnd
  /-- non-zero `LEN` with opcode 4 -/
  | reservedLen
deriving DecidableEq, Repr

end Sys2Proof
end

