-- ==== Sys2Proof/WellFormed.lean ====
section
/-! DEFINITION. When an instruction term is one that a header can hold: `RND` is an 8-bit and `LEN` a 16-bit
unsigned field (30_encoding.md R72, R73). -/

namespace Sys2Proof

/-- `RND = hdr[15:8]` ranges over 0 to 255 (30_encoding.md R73). -/
def rndFits (rnd : Nat) : Bool := decide (rnd < 256)

/-- `LEN = hdr[31:16]` ranges over 0 to 65535 (30_encoding.md R73). -/
def lenFits (len : Nat) : Bool := decide (len < 65536)

/-- An instruction is well-formed when each of its fields fits its place in the header (30_encoding.md R72). -/
def Instr.wf : Instr → Bool
  | .setkey rnd len => rndFits rnd && lenFits len
  | .resync len => lenFits len
  | .combineEnc len => lenFits len
  | .combineDec len => lenFits len
  | .combineGen len => lenFits len
  | .seek => true

end Sys2Proof
end

