-- ==== Sys2Proof/Decode.lean ====
section
/-! DEFINITION. The command encoding of 30_encoding.md: header fields (R72, R73), `Decode` total over all headers
(R76), `PayloadLen` (R75), and after them the encoder (R72, R83) and the stream binding of a command (R71). -/

namespace Sys2Proof

open Sys2Proof.Machine (le32 bytesLe32 natBytes)

/-- `OPC = hdr[3:0]` (30_encoding.md R73). -/
def opcField (hdr : Word) : Nat := (hdr.extractLsb' 0 4).toNat

/-- `SUB = hdr[7:4]` (30_encoding.md R73). -/
def subField (hdr : Word) : Nat := (hdr.extractLsb' 4 4).toNat

/-- `RND = hdr[15:8]`, 0 to 255 (30_encoding.md R73). -/
def rndField (hdr : Word) : Nat := (hdr.extractLsb' 8 8).toNat

/-- `LEN = hdr[31:16]`, 0 to 65535 (30_encoding.md R73). -/
def lenField (hdr : Word) : Nat := (hdr.extractLsb' 16 16).toNat

/-- The COMBINE rows of `Decode`: `SUB` selects the operation, `RND` must be 0 (30_encoding.md R74, R76). -/
def decodeCombine (sub rnd len : Nat) : Except Illegal Instr :=
  if 3 ≤ sub then .error .reservedSub
  else if rnd ≠ 0 then .error .reservedRnd
  else if sub = 0 then .ok (.combineEnc len)
  else if sub = 1 then .ok (.combineDec len)
  else .ok (.combineGen len)

/-- `Decode(hdr)` (30_encoding.md R76), with the class of R77 that makes an illegal header illegal. -/
def decodeHeader (hdr : Word) : Except Illegal Instr :=
  let opc := opcField hdr
  let sub := subField hdr
  let rnd := rndField hdr
  let len := lenField hdr
  if opc = 1 then
    if sub ≠ 0 then .error .reservedSub else .ok (.setkey rnd len)
  else if opc = 2 then
    if sub ≠ 0 then .error .reservedSub
    else if rnd ≠ 0 then .error .reservedRnd
    else .ok (.resync len)
  else if opc = 3 then decodeCombine sub rnd len
  else if opc = 4 then
    if sub ≠ 0 then .error .reservedSub
    else if rnd ≠ 0 then .error .reservedRnd
    else if len ≠ 0 then .error .reservedLen
    else .ok .seek
  else .error .reservedOpcode

/-- The instruction of a legal header, `none` for a header that `Decode` maps to ILLEGAL (30_encoding.md R76, R77). -/
def decode (hdr : Word) : Option Instr :=
  match decodeHeader hdr with
  | .ok i => some i
  | .error _ => none

/-- `PayloadLen(hdr)` of a legal header (30_encoding.md R75). -/
def payloadLen : Instr → Nat
  | .setkey _ len => len
  | .resync len => len + 8
  | .combineEnc len => len
  | .combineDec len => len
  | .combineGen _ => 0
  | .seek => 8

/-- A header from its four fields (30_encoding.md R72). -/
def header (opc sub rnd len : Nat) : Word :=
  BitVec.ofNat 32 (opc + sub * 2 ^ 4 + rnd * 2 ^ 8 + len * 2 ^ 16)

/-- The header of an instruction (30_encoding.md R74, R83). -/
def encode : Instr → Word
  | .setkey rnd len => header 1 0 rnd len
  | .resync len => header 2 0 0 len
  | .combineEnc len => header 3 0 0 len
  | .combineDec len => header 3 1 0 len
  | .combineGen len => header 3 2 0 len
  | .seek => header 4 0 0 0

/-- A command on the input stream: its header as 4 bytes, least significant byte first, then its payload
(30_encoding.md R71). -/
def commandBytes (i : Instr) (payload : List Byte) : List Byte := bytesLe32 (encode i) ++ payload

/-- The instruction and the payload at the front of a byte stream, with the bytes after them; `none` when the header is
illegal or the stream is too short (30_encoding.md R80). -/
def decodeStream (bs : List Byte) : Option (Instr × List Byte × List Byte) :=
  if bs.length < 4 then none
  else
    match decode (le32 bs 0) with
    | none => none
    | some i =>
      let rest := bs.drop 4
      if rest.length < payloadLen i then none
      else some (i, rest.take (payloadLen i), rest.drop (payloadLen i))

/-- The host's reading of one opcode-table row: the 4 header bytes laid out as the stream carries them
(30_encoding.md R71) and given to the decoder. -/
def decodeTableWord (nbits w : Nat) : Option Instr :=
  decode (le32 (natBytes 4 (w % 2 ^ nbits)) 0)

end Sys2Proof
end

