-- ==== Sys2Proof/Config.lean ====
section
/-! DEFINITION. What is fixed when the block is built (00_scope.md R6): the variant. What follows from the
variant (R7) is in Machine/Params.lean. -/

namespace Sys2Proof

/-- The two variants of the block: ORIGINAL (64-bit counter, 64-bit nonce) and IETF (32-bit counter, 96-bit
nonce), 00_scope.md R3 and R6. -/
inductive Variant where
  | original
  | ietf
deriving DecidableEq, Repr

/-- DESIGN CHOICE (log 1): the variant of the build that `State.reset` describes. The spec leaves VARIANT an open
parameter (92_eei_decisions.md D2); the machine reads the field `variant` of State, never this constant. Unsafe only
for a claim that rests on this value. -/
def Config.buildVariant : Variant := .ietf

end Sys2Proof
end

