-- ==== Sys2Proof/Machine/State.lean ====
section
/-! DEFINITION. The state of the block (10_state.md), the two streams of its host interface (30_encoding.md R71), the
reasons a step stops, and the state after reset (10_state.md R37). -/

namespace Sys2Proof.Machine

/-- The status codes (30_encoding.md R78); their byte values are `Status.code` in Machine/Ops.lean. -/
inductive Status where
  | ok
  | invalidKeyLength
  | invalidIVLength
  | invalidRounds
  | invalidSeek
  | counterOverflow
  | notKeyed
  | illegalCommand
deriving DecidableEq, Repr

/-- A response `(status, out)` (30_encoding.md R70). -/
structure Response where
  status : Status
  out : List Byte
deriving DecidableEq, Repr

/-- What the host does to the block: it sends the next byte of the input stream, or it asserts reset
(70_reset_and_hazards.md R260, R263). -/
inductive HostEvent where
  /-- the next byte of the input stream (30_encoding.md R71) -/
  | byte (b : Byte)
  /-- Reset is asserted. Where it comes before the block has read a byte of a further command, `delivered` is how many
  bytes of the last response had been written when it came: the block "sends no more of its response"
  (70_reset_and_hazards.md R260). DESIGN CHOICE (log 6). -/
  | reset (delivered : Nat)
deriving DecidableEq, Repr

/-- The block's own state: the elements of 60_exceptions.md R224, and no others. -/
structure Engine where
  /-- `W[0..15]` (10_state.md R20). -/
  w : Words
  /-- `ROUNDS`, a number; the spec fixes no width (10_state.md R26, log 12). -/
  rounds : Nat
  /-- `KEYED` (10_state.md R27). -/
  keyed : Bool
  /-- `EXH` (10_state.md R28). -/
  exh : Bool
  /-- `KB[0..63]` (10_state.md R29). -/
  kb : Block
  /-- `POS ∈ {0, ..., 64}`; the buffer is empty exactly when it is 64 (10_state.md R29). -/
  pos : Fin 65
deriving DecidableEq, Repr

/-- The machine: the block with its build-time variant and the two streams between it and the host. -/
structure State where
  /-- `VARIANT` (00_scope.md R6): fixed when the block is built; no step changes it (log 1). -/
  variant : Variant
  /-- The block's own state. -/
  engine : Engine
  /-- `P`, the payload of the command being executed (00_scope.md R12); empty between commands (log 5). -/
  payload : List Byte
  /-- The input stream: what the host has sent and the block has not read, oldest first (30_encoding.md R71, log 2). -/
  input : List HostEvent
  /-- The response of the last command, being written to the output stream (30_encoding.md R71, log 4). -/
  response : Option Response
  /-- The output stream before that response, oldest byte first (30_encoding.md R71, log 4). No meaning reads it. -/
  sent : List Byte
deriving DecidableEq, Repr

/-- Where the machine has no step: it waits for the host (70_reset_and_hazards.md R263, R272;
93_implementation_defined.md U9 `stuck`). Both are raised by `step` alone, never by a meaning, and both are safe: nothing
is claimed of a command the block did not receive in full (log 3). -/
inductive Fault where
  /-- Raised by `step` when fewer than the 4 bytes of a header are there: the block is idle or in mid-header. Safe. -/
  | waitingForHeader
  /-- Raised by `step` when a legal header has come and fewer than its `PayloadLen` payload bytes. Safe. -/
  | waitingForPayload
deriving DecidableEq, Repr

/-- Instructions without a meaning. Every instruction has one, so no step answers with it. -/
inductive Refusal where
  /-- Raised by `exec` for an instruction that has no meaning yet (there is none). Safe. -/
  | notModelled (mnemonic : String)
deriving DecidableEq, Repr

/-- The block after reset: `KEYED = 0`, `EXH = 0`, `POS = 64`, `ROUNDS = 20`, `W` and `KB` zero (10_state.md R37). -/
def Engine.reset : Engine where
  w := Vector.replicate 16 0
  rounds := 20
  keyed := false
  exh := false
  kb := Vector.replicate 64 0
  pos := 64

/-- The machine of either build right after reset, with nothing sent by the host (70_reset_and_hazards.md R260, R261). -/
def State.resetOf (v : Variant) : State where
  variant := v
  engine := Engine.reset
  payload := []
  input := []
  response := none
  sent := []

/-- The machine right after reset, for the build of `Config.buildVariant` (log 1). -/
def State.reset : State := State.resetOf Config.buildVariant

end Sys2Proof.Machine
end

