-- ==== Sys2Proof/Machine/Stream.lean ====
section
/-! DEFINITION. Reading one command from the input stream (30_encoding.md R71, R80, R81), with reset wherever the host
asserts it (70_reset_and_hazards.md R260). -/

namespace Sys2Proof.Machine

/-- What the next `n` events of the input stream give. -/
inductive Taken where
  /-- `n` bytes, and the events after them -/
  | bytes (bs : List Byte) (rest : List HostEvent)
  /-- reset came first; the bytes before it are gone -/
  | interrupted (rest : List HostEvent)
  /-- the host has not sent that much -/
  | starved
deriving DecidableEq, Repr

/-- Read `n` bytes of the input stream. -/
def takeBytes : Nat → List HostEvent → Taken
  | 0, ev => .bytes [] ev
  | _ + 1, [] => .starved
  | _ + 1, .reset _ :: ev => .interrupted ev
  | n + 1, .byte b :: ev =>
    match takeBytes n ev with
    | .bytes bs rest => .bytes (b :: bs) rest
    | .interrupted rest => .interrupted rest
    | .starved => .starved

/-- What the block finds at the front of its input stream. -/
inductive Fetched where
  /-- a complete command: its header and its payload, and the events after them -/
  | command (hdr : Word) (payload : List Byte) (rest : List HostEvent)
  /-- Reset before any byte of a further command, after `delivered` bytes of the last response. -/
  | resetIdle (delivered : Nat) (rest : List HostEvent)
  /-- Reset after some bytes of a command; the last response was complete, since the block writes it before it reads on
  (30_encoding.md R71). -/
  | resetMidCommand (rest : List HostEvent)
  /-- fewer than the 4 bytes of a header -/
  | noHeader
  /-- a legal header with fewer than its payload bytes -/
  | noPayload
deriving DecidableEq, Repr

/-- How many payload bytes the block reads after a header: `PayloadLen(hdr)` of a legal header (30_encoding.md R80), none
after an illegal one (R81). -/
def payloadToRead (hdr : Word) : Nat :=
  match decode hdr with
  | none => 0
  | some i => payloadLen i

/-- The payload after a header (30_encoding.md R80, R81). -/
def fetchPayload (hdr : Word) (ev : List HostEvent) : Fetched :=
  match takeBytes (payloadToRead hdr) ev with
  | .bytes p rest => .command hdr p rest
  | .interrupted rest => .resetMidCommand rest
  | .starved => .noPayload

/-- Read one command: 4 header bytes, least significant first, then the payload (30_encoding.md R71, R80). -/
def fetch : List HostEvent → Fetched
  | .reset delivered :: ev => .resetIdle delivered ev
  | ev =>
    match takeBytes 4 ev with
    | .bytes hs rest => fetchPayload (le32 hs 0) rest
    | .interrupted rest => .resetMidCommand rest
    | .starved => .noHeader

/-- The bytes of the command that an opcode-table word begins: the header and as many zero payload bytes as it asks for, or
the word's own bits above bit 31 where the word has them. -/
def tableWordBytes (nbits w : Nat) : List Byte :=
  let hdr := le32 (natBytes 4 (w % 2 ^ nbits)) 0
  let total := 4 + payloadToRead hdr
  let given := min total ((nbits + 7) / 8)
  natBytes given (w % 2 ^ nbits) ++ List.replicate (total - given) 0

end Sys2Proof.Machine
end

