-- ==== Sys2Proof/Machine/Diffusion.lean ====
section
/-! DEFINITION. The chacha_diffusion_engine datapath (42_diffusion.md): pure functions from 16 words to 16 words, and to a
64-byte block. It is the same for both variants (R140). -/

namespace Sys2Proof.Machine

/-- `rotl32(x, n) = ((x << n) | (x >> (32 - n))) mod 2^32` for `0 < n < 32` (42_diffusion.md R130). -/
def rotl32 (x : Word) (n : Nat) : Word := (x <<< n) ||| (x >>> (32 - n))

/-- The quarter-round `QR(a, b, c, d)`: four steps of add, xor and rotate, by 16, 12, 8 and 7 (42_diffusion.md R131,
90_conflicts.md C1). -/
def quarterRound (a b c d : Word) : Word × Word × Word × Word :=
  let a := a + b
  let d := rotl32 (d ^^^ a) 16
  let c := c + d
  let b := rotl32 (b ^^^ c) 12
  let a := a + b
  let d := rotl32 (d ^^^ a) 8
  let c := c + d
  let b := rotl32 (b ^^^ c) 7
  (a, b, c, d)

/-- `(X[i], X[j], X[k], X[l]) <- QR(X[i], X[j], X[k], X[l])` (42_diffusion.md R132). -/
def quarterRoundAt (x : Words) (i j k l : Fin 16) : Words :=
  match quarterRound x[i] x[j] x[k] x[l] with
  | (a, b, c, d) => (((x.set i a).set j b).set k c).set l d

/-- `ColumnPass` (42_diffusion.md R132). -/
def columnPass (x : Words) : Words :=
  let x := quarterRoundAt x 0 4 8 12
  let x := quarterRoundAt x 1 5 9 13
  let x := quarterRoundAt x 2 6 10 14
  quarterRoundAt x 3 7 11 15

/-- `DiagonalPass` (42_diffusion.md R133). -/
def diagonalPass (x : Words) : Words :=
  let x := quarterRoundAt x 0 5 10 15
  let x := quarterRoundAt x 1 6 11 12
  let x := quarterRoundAt x 2 7 8 13
  quarterRoundAt x 3 4 9 14

/-- `DoubleRound(X) = DiagonalPass(ColumnPass(X))` (42_diffusion.md R134). -/
def doubleRound (x : Words) : Words := diagonalPass (columnPass x)

/-- `n` double-rounds, one after the other (42_diffusion.md R136). -/
def doubleRounds : Nat → Words → Words
  | 0, x => x
  | n + 1, x => doubleRounds n (doubleRound x)

/-- `Diffuse(X, r)`: `r/2` double-rounds on a working copy, then the feed-forward `Z[i] = Y[i] +32 X[i]`
(42_diffusion.md R136). Only even `r` occur (10_state.md R26); for an odd `r`, which no run reaches, the half is rounded
down (log 10). -/
def diffuse (x : Words) (r : Nat) : Words :=
  Vector.ofFn fun i : Fin 16 => (doubleRounds (r / 2) x)[i] + x[i]

/-- `Serialize(Z)`: byte `4i + b` is `Z[i][8b+7 : 8b]` (42_diffusion.md R137, 20_memory.md R54). -/
def serialize (z : Words) : Block :=
  Vector.ofFn fun n : Fin 64 => (z[n.val / 4]'(by omega)).extractLsb' (8 * (n.val % 4)) 8

/-- `Block(W, r) = Serialize(Diffuse(W, r))` (42_diffusion.md R138). -/
def block (w : Words) (r : Nat) : Block := serialize (diffuse w r)

end Sys2Proof.Machine
end

