-- ==== Sys2Proof/Machine/Params.lean ====
section
/-! DEFINITION. The values that follow from VARIANT (00_scope.md R7) and the constant words (10_state.md R22). -/

namespace Sys2Proof.Machine

/-- `CTR_BITS` (00_scope.md R7). -/
def ctrBits : Variant → Nat
  | .original => 64
  | .ietf => 32

/-- `NONCE_BYTES` (00_scope.md R7). -/
def nonceBytes : Variant → Nat
  | .original => 8
  | .ietf => 12

/-- `KEY_BYTES_OK`: 16 or 32 in ORIGINAL, 32 in IETF (00_scope.md R7). -/
def keyBytesOk : Variant → Nat → Bool
  | .original, len => len == 16 || len == 32
  | .ietf, len => len == 32

/-- The legal round counts {8, 10, 12, 14, 16, 18, 20} (00_scope.md R7, 90_conflicts.md C2). -/
def legalRounds : List Nat := [8, 10, 12, 14, 16, 18, 20]

/-- `ROUNDS_OK`: one of the seven counts in ORIGINAL; in IETF the rounds field is ignored (00_scope.md R7). -/
def roundsOk : Variant → Nat → Bool
  | .original, rnd => legalRounds.contains rnd
  | .ietf, _ => true

/-- `ROUNDS_DEFAULT` (00_scope.md R7): IETF's fixed count, the reset value, and the assembler's default. -/
def roundsDefault : Nat := 20

/-- The round count SETKEY stores: `RND` in ORIGINAL, always 20 in IETF (41_state_init.md R100, R103). -/
def roundsStored : Variant → Nat → Nat
  | .original, rnd => rnd
  | .ietf, _ => roundsDefault

/-- `SIGMA`, "expand 32-byte k", for a 32-byte key (10_state.md R22). -/
def sigma : Vector Word 4 := #v[0x61707865, 0x3320646e, 0x79622d32, 0x6b206574]

/-- `TAU`, "expand 16-byte k", for a 16-byte key (10_state.md R22). -/
def tau : Vector Word 4 := #v[0x61707865, 0x3120646e, 0x79622d36, 0x6b206574]

end Sys2Proof.Machine
end

