-- ==== Sys2Proof/Machine/Counter.lean ====
section
/-! DEFINITION. The block counter `CTR` (10_state.md R25): reading it, setting it, and advancing it by one block
(43_keystream_combiner.md R165, R166). -/

namespace Sys2Proof.Machine

/-- `CTR` (10_state.md R25): `{W[13], W[12]}` in ORIGINAL; in IETF `W[12]`, plus `2^32` when `EXH`. -/
def Engine.ctr (v : Variant) (e : Engine) : Nat :=
  match v with
  | .original => e.w[13].toNat * 2 ^ 32 + e.w[12].toNat
  | .ietf => (if e.exh then 2 ^ 32 else 0) + e.w[12].toNat

/-- `W` with its counter words set to `n` (10_state.md R24, R25): words 12 and 13 in ORIGINAL, word 12 in IETF. The nonce
words stay. -/
def counterWords (v : Variant) (w : Words) (n : Nat) : Words :=
  match v with
  | .original => (w.set 12 (BitVec.ofNat 32 n)).set 13 (BitVec.ofNat 32 (n / 2 ^ 32))
  | .ietf => w.set 12 (BitVec.ofNat 32 n)

/-- `CTR <- n` (10_state.md R25), with `EXH <- 0` in both variants, as the commands that set the counter state it
(10_state.md R33, 41_state_init.md R110, 44_seek.md R200; log 8). -/
def Engine.setCtr (v : Variant) (n : Nat) (e : Engine) : Engine :=
  { e with w := counterWords v e.w n, exh := false }

/-- `Advance()` (43_keystream_combiner.md R165 and R166): ORIGINAL carries from word 12 into word 13 and wraps modulo `2^64`;
IETF sets `EXH` when it passes `2^32 - 1`, and never touches the nonce words. -/
def Engine.advance (v : Variant) (e : Engine) : Engine :=
  match v with
  | .original =>
    let w := e.w.set 12 (e.w[12] + 1)
    if e.w[12] + 1 = 0 then { e with w := w.set 13 (e.w[13] + 1) } else { e with w := w }
  | .ietf =>
    if e.w[12] = 0xFFFFFFFF then { e with w := e.w.set 12 0, exh := true }
    else { e with w := e.w.set 12 (e.w[12] + 1) }

end Sys2Proof.Machine
end

