-- ==== Sys2Proof/Machine/Ops.lean ====
section
/-! DEFINITION. The named operations every command shares: the status byte of a response, ending a command with `OK` or
with an error, the payload-length check, and reset. An error is a response, never a trap (60_exceptions.md R220, R228):
`State.raise` is the one operation that reports one. -/

namespace Sys2Proof.Machine

/-- The status byte (30_encoding.md R78). -/
def Status.code : Status → Byte
  | .ok => 0x00
  | .invalidKeyLength => 0x01
  | .invalidIVLength => 0x02
  | .invalidRounds => 0x03
  | .invalidSeek => 0x04
  | .counterOverflow => 0x05
  | .notKeyed => 0x06
  | .illegalCommand => 0x07

/-- A response on the output stream: the status byte, then the bytes of `out` (30_encoding.md R71). -/
def Response.bytes (r : Response) : List Byte := r.status.code :: r.out

/-- The bytes of the response being written, if there is one. -/
def State.responseBytes (s : State) : List Byte :=
  match s.response with
  | none => []
  | some r => r.bytes

/-- The whole output stream (30_encoding.md R71, 70_reset_and_hazards.md R272). -/
def State.output (s : State) : List Byte := s.sent ++ s.responseBytes

/-- End a command with response `r`, the block's own state becoming `e`. The last response is complete before this one
begins (20_memory.md R59), and the payload is used up. -/
def State.respond (s : State) (r : Response) (e : Engine) : State :=
  { s with engine := e, payload := [], response := some r, sent := s.output }

/-- `raise <Status>` (00_scope.md R12): the response carries that status and no output bytes, and every element of the
block's own state keeps its value (60_exceptions.md R220, R224). -/
def State.raise (s : State) (status : Status) : State := s.respond ⟨status, []⟩ s.engine

/-- What a command's own rule yields: the error it raises, or the block's new state and the bytes emitted
(00_scope.md R12). -/
abbrev CommandResult := Except Status (Engine × List Byte)

/-- `return OK` keeps the assignments and sends the emitted bytes; `raise` keeps nothing (00_scope.md R11, R12). -/
def State.finish (s : State) : CommandResult → State
  | .ok (e, out) => s.respond ⟨.ok, out⟩ e
  | .error status => s.raise status

/-- Run a legal command whose `PayloadLen` is `n`: a payload of another length is `IllegalCommand`, before any other check
(30_encoding.md R82, 60_exceptions.md R225). Every command completes (70_reset_and_hazards.md R273). -/
def State.runCommand (s : State) (n : Nat) (body : List Byte → CommandResult) : Host.Outcome State Fault Refusal :=
  if s.payload.length = n then .next (s.finish (body s.payload)) else .next (s.raise .illegalCommand)

/-- Reset (70_reset_and_hazards.md R260): every element at its reset value, the command or response in progress abandoned
after `delivered` bytes of the response; the next byte of `rest` is the first of a header (log 6). -/
def State.takeReset (s : State) (delivered : Nat) (rest : List HostEvent) : State :=
  { State.resetOf s.variant with input := rest, sent := s.sent ++ s.responseBytes.take delivered }

end Sys2Proof.Machine
end

