-- ==== Sys2Proof/Machine/Flags.lean ====
section
/-! DEFINITION. The conditions that decide a command's status: the `KEYED` flag (60_exceptions.md R222), the range of a
block index (44_seek.md R201, 41_state_init.md R111) and the IETF overflow arithmetic (43_keystream_combiner.md R167). There are no
condition codes; `EXH` is computed by `Engine.advance` and `Engine.setCtr`. -/

namespace Sys2Proof.Machine

/-- RESYNC, COMBINE and SEEK raise `NotKeyed` while `KEYED = 0` (10_state.md R27, 60_exceptions.md R222). -/
def Engine.requireKeyed (e : Engine) (body : CommandResult) : CommandResult :=
  if e.keyed then body else .error .notKeyed

/-- A block index fits the counter when it is below `2^CTR_BITS` (44_seek.md R201). -/
def counterFits (v : Variant) (n : Nat) : Bool := decide (n < 2 ^ ctrBits v)

/-- `avail`: the bytes still buffered (43_keystream_combiner.md R167). -/
def Engine.avail (e : Engine) : Nat := 64 - e.pos.val

/-- `need`: how many blocks a COMBINE of `len` bytes generates,
`if LEN <= avail then 0 else ceil((LEN - avail) / 64)` (43_keystream_combiner.md R167). -/
def Engine.blocksNeeded (e : Engine) (len : Nat) : Nat :=
  if len ≤ e.avail then 0 else (len - e.avail + 63) / 64

/-- `remain = 2^32 - CTR`: the IETF blocks left (43_keystream_combiner.md R167). Unsigned: 0 where `CTR` is above `2^32`, which
no run reaches (log 9). -/
def Engine.blocksLeft (e : Engine) : Nat := 2 ^ 32 - e.ctr .ietf

/-- Whether `OverflowCheck(LEN)` raises `CounterOverflow`: IETF only, when more blocks are needed than are left
(43_keystream_combiner.md R167). -/
def Engine.overflows (v : Variant) (e : Engine) (len : Nat) : Bool :=
  match v with
  | .original => false
  | .ietf => decide (e.blocksLeft < e.blocksNeeded len)

end Sys2Proof.Machine
end

