-- ==== Sys2Proof/Machine/Operands.lean ====
section
/-! DEFINITION. The operands that a payload carries: the key, the IV and initial block, the block index, and the data
bytes of a COMBINE (30_encoding.md R73, R74). -/

namespace Sys2Proof.Machine

/-- Key word `j` of the eight, `W[4+j]`: `le32(K, j)` of a 32-byte key; a 16-byte key gives four words, repeated twice
(10_state.md R23, 20_memory.md R51). -/
def keyWord (len : Nat) (key : List Byte) (j : Nat) : Word := le32 key (if len = 32 then j else j % 4)

/-- Nonce word `j` is `le32(IV, j)` (20_memory.md R52). -/
def nonceWord (iv : List Byte) (j : Nat) : Word := le32 iv j

/-- RESYNC's initial block `n = le64(P[LEN .. LEN+7], 0)` (41_state_init.md R110, 20_memory.md R53). -/
def initialBlock (len : Nat) (p : List Byte) : Nat := (le64 (p.drop len) 0).toNat

/-- SEEK's block index `n = le64(P, 0)` (44_seek.md R200, 20_memory.md R53). -/
def blockIndex (p : List Byte) : Nat := (le64 p 0).toNat

/-- The two modes of `Combine` (43_keystream_combiner.md R163). -/
inductive CombineMode where
  | xor
  | gen
deriving DecidableEq, Repr

/-- The input byte of each output byte of a COMBINE: payload byte `i` in mode XOR, none in mode GEN, which ignores its
input (43_keystream_combiner.md R162, R163). -/
def combineInputs (mode : CombineMode) (len : Nat) (p : List Byte) : List (Option Byte) :=
  match mode with
  | .xor => p.map some
  | .gen => List.replicate len none

/-- One output byte: `k ^ P[i]`, or `k` where there is no input (43_keystream_combiner.md R163). -/
def combineByte (k : Byte) : Option Byte → Byte
  | none => k
  | some b => k ^^^ b

end Sys2Proof.Machine
end

