-- ==== Sys2Proof/Machine/Combiner.lean ====
section
/-! DEFINITION. The keystream_combiner_with_counter: the refill of the keystream buffer and the three COMBINE commands
(43_keystream_combiner.md). -/

namespace Sys2Proof.Machine

/-- `Refill()` (43_keystream_combiner.md R164): the block of the state as it stands, the cursor at 0, and the counter one
further. -/
def Engine.refill (v : Variant) (e : Engine) : Engine :=
  Engine.advance v { e with kb := block e.w e.rounds, pos := 0 }

/-- `k <- KB[POS]; POS <- POS + 1` with the cursor at `p` (43_keystream_combiner.md R163). -/
def Engine.consumeAt (e : Engine) (p : Fin 64) : Byte × Engine := (e.kb[p], { e with pos := p.succ })

/-- The next keystream byte: `if POS = 64: Refill()`, then one byte of the buffer (43_keystream_combiner.md R163). -/
def Engine.nextKeyByte (v : Variant) (e : Engine) : Byte × Engine :=
  if h : e.pos.val < 64 then e.consumeAt ⟨e.pos.val, h⟩ else (e.refill v).consumeAt 0

/-- The loop of `Combine` over the input of each byte, in increasing order (43_keystream_combiner.md R163, 20_memory.md R59): the
bytes emitted and the state left. -/
def Engine.combineLoop (v : Variant) : List (Option Byte) → Engine → List Byte × Engine
  | [], e => ([], e)
  | b :: bs, e =>
    let step := e.nextKeyByte v
    let rest := Engine.combineLoop v bs step.2
    (combineByte step.1 b :: rest.1, rest.2)

/-- `Combine(mode, LEN, P)` (43_keystream_combiner.md R163): the whole request is checked before any byte is produced
(R167). -/
def Engine.combine (v : Variant) (mode : CombineMode) (len : Nat) (e : Engine) (p : List Byte) : CommandResult :=
  e.requireKeyed <|
    if e.overflows v len then .error .counterOverflow
    else
      let r := Engine.combineLoop v (combineInputs mode len p) e
      .ok (r.2, r.1)

/-- COMBINE.ENC: `Combine(XOR, LEN, P)` with `LEN` plaintext bytes (43_keystream_combiner.md R160). -/
def execCombineEnc (len : Nat) (s : State) : Host.Outcome State Fault Refusal :=
  s.runCommand (payloadLen (.combineEnc len)) (s.engine.combine s.variant .xor len)

/-- COMBINE.DEC: `Combine(XOR, LEN, P)` with `LEN` ciphertext bytes (43_keystream_combiner.md R161). -/
def execCombineDec (len : Nat) (s : State) : Host.Outcome State Fault Refusal :=
  s.runCommand (payloadLen (.combineDec len)) (s.engine.combine s.variant .xor len)

/-- COMBINE.GEN: `Combine(GEN, LEN, ε)` with no payload (43_keystream_combiner.md R162). -/
def execCombineGen (len : Nat) (s : State) : Host.Outcome State Fault Refusal :=
  s.runCommand (payloadLen (.combineGen len)) (s.engine.combine s.variant .gen len)

end Sys2Proof.Machine
end

