-- ==== Sys2Proof/Machine/Seek.lean ====
section
/-! DEFINITION. The seek_controller: SEEK (44_seek.md). -/

namespace Sys2Proof.Machine

/-- `SEEK(P)` (44_seek.md R200): the counter at block `n`, the buffer empty; an `n` that does not fit raises `InvalidSeek`
(R201). -/
def Engine.seek (v : Variant) (e : Engine) (p : List Byte) : CommandResult :=
  e.requireKeyed <|
    if !counterFits v (blockIndex p) then .error .invalidSeek
    else .ok ({ e.setCtr v (blockIndex p) with pos := 64 }, [])

/-- SEEK: the payload is the 8 bytes of the block index (44_seek.md R200, 30_encoding.md R75). -/
def execSeek (s : State) : Host.Outcome State Fault Refusal :=
  s.runCommand (payloadLen .seek) (s.engine.seek s.variant)

end Sys2Proof.Machine
end

