-- ==== Sys2Proof/Machine/StateInit.lean ====
section
/-! DEFINITION. The state_init_unit: SETKEY and RESYNC (41_state_init.md). -/

namespace Sys2Proof.Machine

/-- The constant words, "selected by key length": `SIGMA` for a 32-byte key, else `TAU` (10_state.md R21, R22). -/
def constantWords (len : Nat) : Vector Word 4 := if len = 32 then sigma else tau

/-- The 16 words SETKEY builds: the constants, the eight key words, and a counter and nonce of zero (41_state_init.md R100;
10_state.md R21 to R23). -/
def initialWords (len : Nat) (key : List Byte) : Words :=
  Vector.ofFn fun j : Fin 16 =>
    if h : j.val < 4 then (constantWords len)[j.val]
    else if j.val < 12 then keyWord len key (j.val - 4)
    else 0

/-- `W` with its nonce words set from an IV: words 14 and 15 in ORIGINAL, 13 to 15 in IETF (10_state.md R24,
41_state_init.md R110). -/
def nonceWords (v : Variant) (w : Words) (iv : List Byte) : Words :=
  match v with
  | .original => (w.set 14 (nonceWord iv 0)).set 15 (nonceWord iv 1)
  | .ietf => ((w.set 13 (nonceWord iv 0)).set 14 (nonceWord iv 1)).set 15 (nonceWord iv 2)

/-- `SETKEY(RND, LEN, P)` (41_state_init.md R100): the key length is checked before the round count (R101). `KB` is not
written. -/
def Engine.setkey (v : Variant) (rnd len : Nat) (e : Engine) (p : List Byte) : CommandResult :=
  if !keyBytesOk v len then .error .invalidKeyLength
  else if !roundsOk v rnd then .error .invalidRounds
  else .ok ({ w := initialWords len p, rounds := roundsStored v rnd, keyed := true, exh := false, kb := e.kb,
              pos := 64 }, [])

/-- `RESYNC(LEN, P)` (41_state_init.md R110): the IV length is checked before the range of the initial block (R111). -/
def Engine.resync (v : Variant) (len : Nat) (e : Engine) (p : List Byte) : CommandResult :=
  e.requireKeyed <|
    if len ≠ nonceBytes v then .error .invalidIVLength
    else if !counterFits v (initialBlock len p) then .error .invalidSeek
    else
      let e' := e.setCtr v (initialBlock len p)
      .ok ({ e' with w := nonceWords v e'.w p, pos := 64 }, [])

/-- SETKEY: the payload is the `LEN` key bytes (41_state_init.md R100, 30_encoding.md R75). -/
def execSetkey (rnd len : Nat) (s : State) : Host.Outcome State Fault Refusal :=
  s.runCommand (payloadLen (.setkey rnd len)) (s.engine.setkey s.variant rnd len)

/-- RESYNC: the payload is the `LEN` IV bytes and then the 8 bytes of the initial block (41_state_init.md R110,
30_encoding.md R75). -/
def execResync (len : Nat) (s : State) : Host.Outcome State Fault Refusal :=
  s.runCommand (payloadLen (.resync len)) (s.engine.resync s.variant len)

end Sys2Proof.Machine
end

