-- ==== Sys2Proof/Machine/Dispatch.lean ====
section
/-! DEFINITION. One arm per command (30_encoding.md R76): the meaning of each instruction at a state whose `payload` field
holds the command's payload. -/

namespace Sys2Proof.Machine

def exec (i : Instr) (s : State) : Host.Outcome State Fault Refusal :=
  match i with
  | .setkey rnd len => Sys2Proof.Machine.execSetkey rnd len s
  | .resync len => Sys2Proof.Machine.execResync len s
  | .combineEnc len => Sys2Proof.Machine.execCombineEnc len s
  | .combineDec len => Sys2Proof.Machine.execCombineDec len s
  | .combineGen len => Sys2Proof.Machine.execCombineGen len s
  | .seek => Sys2Proof.Machine.execSeek s

end Sys2Proof.Machine
end

