-- ==== Sys2Proof/Machine/Transact.lean ====
section
/-! DEFINITION. One transaction: the spec's `Exec(VARIANT, S, hdr, P)` (00_scope.md R13), total over every header and every
payload. -/

namespace Sys2Proof.Machine

/-- Execute the command `(hdr, P)`: an ILLEGAL header is answered with `IllegalCommand` and changes nothing
(30_encoding.md R77, 60_exceptions.md R223); a legal one runs with `P` as its payload. -/
def transact (hdr : Word) (p : List Byte) (s : State) : Host.Outcome State Fault Refusal :=
  match decode hdr with
  | none => .next (s.raise .illegalCommand)
  | some i => exec i { s with payload := p }

end Sys2Proof.Machine
end

