-- ==== Sys2Proof/Machine/Step.lean ====
section
/-! DEFINITION. One step of the machine: read one complete command from the input stream and execute it, or take a reset
(00_scope.md R13, 30_encoding.md R71, 70_reset_and_hazards.md R260). -/

namespace Sys2Proof.Machine

/-- One step. Where the host has not sent a complete command the machine has no step (70_reset_and_hazards.md R272, log 3). -/
def step (s : State) : Host.Outcome State Fault Refusal :=
  match fetch s.input with
  | .command hdr p rest => transact hdr p { s with input := rest }
  | .resetIdle delivered rest => .next (s.takeReset delivered rest)
  | .resetMidCommand rest => .next (s.takeReset s.responseBytes.length rest)
  | .noHeader => .fault .waitingForHeader
  | .noPayload => .fault .waitingForPayload

/-- `s` with the host sending, before anything else, the command that an opcode-table word begins (log 2). -/
def State.withFetchWord (s : State) (nbits w : Nat) : State :=
  { s with input := (tableWordBytes nbits w).map .byte ++ s.input }

end Sys2Proof.Machine
end

