-- ==== Sys2Proof/Machine/Assembler.lean ====
section
/-! DEFINITION. The assembler of 30_encoding.md: one line to the commands it assembles to (R83), the pseudo-instructions
(R84) and the text of a line (R83). It is the host's tool; no step uses it. -/

namespace Sys2Proof.Machine

/-- One assembled command: its header and its payload (30_encoding.md R70). -/
abbrev AsmCommand := Word × List Byte

/-- A line of assembly: the six commands (30_encoding.md R83) and the pseudo-instructions (R84). -/
inductive AsmLine where
  | setkey (rounds : Nat) (key : List Byte)
  | resync (iv : List Byte) (initialBlock : Nat)
  | combineEnc (data : List Byte)
  | combineDec (data : List Byte)
  | combineGen (count : Nat)
  | seek (index : Nat)
  | setkeyDefault (key : List Byte)
  | resyncDefault (iv : List Byte)
  | encrypt (data : List Byte)
  | decrypt (data : List Byte)
  | keystream (count : Nat)
  | rewind
  | encryptLong (data : List Byte)
deriving DecidableEq, Repr

/-- The assembler's limits: at most 65535 bytes or count, 255 rounds, a 64-bit block index (30_encoding.md R83). -/
def maxLen : Nat := 65535

/-- `SETKEY rounds, keybytes` (30_encoding.md R83). -/
def asmSetkey (rounds : Nat) (key : List Byte) : Option (List AsmCommand) :=
  if rounds ≤ 255 ∧ key.length ≤ maxLen then some [(encode (.setkey rounds key.length), key)] else none

/-- `RESYNC ivbytes, initial_block` (30_encoding.md R83). -/
def asmResync (iv : List Byte) (n : Nat) : Option (List AsmCommand) :=
  if iv.length ≤ maxLen ∧ n < 2 ^ 64 then
    some [(encode (.resync iv.length), iv ++ bytesLe64 (BitVec.ofNat 64 n))]
  else none

/-- `COMBINE.ENC databytes` (30_encoding.md R83). -/
def asmEnc (data : List Byte) : Option (List AsmCommand) :=
  if data.length ≤ maxLen then some [(encode (.combineEnc data.length), data)] else none

/-- `COMBINE.DEC databytes` (30_encoding.md R83). -/
def asmDec (data : List Byte) : Option (List AsmCommand) :=
  if data.length ≤ maxLen then some [(encode (.combineDec data.length), data)] else none

/-- `COMBINE.GEN count` (30_encoding.md R83). -/
def asmGen (count : Nat) : Option (List AsmCommand) :=
  if count ≤ maxLen then some [(encode (.combineGen count), [])] else none

/-- `SEEK index` (30_encoding.md R83). -/
def asmSeek (n : Nat) : Option (List AsmCommand) :=
  if n < 2 ^ 64 then some [(encode .seek, bytesLe64 (BitVec.ofNat 64 n))] else none

/-- A byte string in pieces of 65535 bytes, the last one the remainder, none when it is empty (30_encoding.md R84). The first
argument bounds the number of pieces. -/
def longPieces : Nat → List Byte → List (List Byte)
  | 0, _ => []
  | n + 1, data => if data.isEmpty then [] else data.take maxLen :: longPieces n (data.drop maxLen)

/-- `ENCRYPT.LONG databytes`, of any length (30_encoding.md R84). -/
def asmEncryptLong (data : List Byte) : Option (List AsmCommand) :=
  some ((longPieces data.length data).map fun d => (encode (.combineEnc d.length), d))

/-- What a line assembles to; `none` where the assembler refuses it (30_encoding.md R83, R84). The defaults `rounds = 20` and
`initialBlock = 0` live here and not in the block (41_state_init.md R102). -/
def assemble : AsmLine → Option (List AsmCommand)
  | .setkey rounds key => asmSetkey rounds key
  | .resync iv n => asmResync iv n
  | .combineEnc data => asmEnc data
  | .combineDec data => asmDec data
  | .combineGen count => asmGen count
  | .seek n => asmSeek n
  | .setkeyDefault key => asmSetkey roundsDefault key
  | .resyncDefault iv => asmResync iv 0
  | .encrypt data => asmEnc data
  | .decrypt data => asmDec data
  | .keystream count => asmGen count
  | .rewind => asmSeek 0
  | .encryptLong data => asmEncryptLong data

/-- A hex digit, of either case (log 17). -/
def hexDigit (c : Char) : Option Nat :=
  if '0' ≤ c ∧ c ≤ '9' then some (c.toNat - '0'.toNat)
  else if 'a' ≤ c ∧ c ≤ 'f' then some (c.toNat - 'a'.toNat + 10)
  else if 'A' ≤ c ∧ c ≤ 'F' then some (c.toNat - 'A'.toNat + 10)
  else none

/-- A decimal digit. -/
def decDigit (c : Char) : Option Nat :=
  if '0' ≤ c ∧ c ≤ '9' then some (c.toNat - '0'.toNat) else none

/-- The digits of a number, most significant first, onto the value of those before them. -/
def digitsFrom (base : Nat) (digit : Char → Option Nat) : Nat → List Char → Option Nat
  | acc, [] => some acc
  | acc, c :: cs =>
    match digit c with
    | none => none
    | some d => digitsFrom base digit (acc * base + d) cs

/-- "a number is decimal or `0x` hex" (30_encoding.md R83). -/
def parseNumber : List Char → Option Nat
  | [] => none
  | '0' :: 'x' :: [] => none
  | '0' :: 'x' :: cs => digitsFrom 16 hexDigit 0 cs
  | cs => digitsFrom 10 decDigit 0 cs

/-- "A byte string is written as hex pairs with no separator, first byte first" (30_encoding.md R83). -/
def parseBytes : List Char → Option (List Byte)
  | [] => some []
  | [_] => none
  | a :: b :: cs =>
    match hexDigit a, hexDigit b, parseBytes cs with
    | some x, some y, some bs => some (BitVec.ofNat 8 (x * 16 + y) :: bs)
    | _, _, _ => none

/-- Leave out the spaces at both ends (log 17). -/
def trimSpaces (cs : List Char) : List Char :=
  ((cs.dropWhile (· == ' ')).reverse.dropWhile (· == ' ')).reverse

/-- The comma-separated operands of a line, each without the spaces around it (log 17). -/
def splitOperands : List Char → List (List Char)
  | [] => [[]]
  | ',' :: cs => [] :: splitOperands cs
  | c :: cs =>
    match splitOperands cs with
    | [] => [[c]]
    | o :: os => (c :: o) :: os

/-- A line whose one operand is a byte string. -/
def bytesLine (mk : List Byte → AsmLine) (a : List Char) : Option AsmLine := (parseBytes a).map mk

/-- A line whose one operand is a number. -/
def numberLine (mk : Nat → AsmLine) (a : List Char) : Option AsmLine := (parseNumber a).map mk

/-- A line from its mnemonic and its operands (30_encoding.md R83, R84). -/
def parseOperands (mnemonic : List Char) (ops : List (List Char)) : Option AsmLine :=
  match ops with
  | [a, b] =>
    if mnemonic = "SETKEY".toList then
      match parseNumber a, parseBytes b with
      | some r, some k => some (.setkey r k)
      | _, _ => none
    else if mnemonic = "RESYNC".toList then
      match parseBytes a, parseNumber b with
      | some iv, some n => some (.resync iv n)
      | _, _ => none
    else none
  | [a] =>
    if mnemonic = "SETKEY".toList then bytesLine .setkeyDefault a
    else if mnemonic = "RESYNC".toList then bytesLine .resyncDefault a
    else if mnemonic = "COMBINE.ENC".toList then bytesLine .combineEnc a
    else if mnemonic = "COMBINE.DEC".toList then bytesLine .combineDec a
    else if mnemonic = "COMBINE.GEN".toList then numberLine .combineGen a
    else if mnemonic = "SEEK".toList then numberLine .seek a
    else if mnemonic = "ENCRYPT".toList then bytesLine .encrypt a
    else if mnemonic = "DECRYPT".toList then bytesLine .decrypt a
    else if mnemonic = "KEYSTREAM".toList then numberLine .keystream a
    else if mnemonic = "ENCRYPT.LONG".toList then bytesLine .encryptLong a
    else if mnemonic = "REWIND".toList ∧ a = [] then some .rewind
    else none
  | _ => none

/-- One line of assembly text (30_encoding.md R83): the mnemonic, a space, the operands. -/
def parseLine (line : List Char) : Option AsmLine :=
  let cs := trimSpaces line
  parseOperands (cs.takeWhile (· != ' ')) ((splitOperands (cs.dropWhile (· != ' '))).map trimSpaces)

/-- Assemble the text of one line; `none` where it is no line or the assembler refuses it (30_encoding.md R83). -/
def assembleText (line : List Char) : Option (List AsmCommand) := (parseLine line).bind assemble

end Sys2Proof.Machine
end

