-- ==== Sys2Proof/Safety.lean ====
section
/-! DEFINITION. What claims about the block are stated in: the invariants of 10_state.md (R22, R26 to R32), the keystream
sequence of a state (43_keystream_combiner.md R170), and what the host can tell apart (10_state.md R36). Nothing here is used by
the step. -/

namespace Sys2Proof.Machine

/-- The block index before `CTR`, modulo `2^CTR_BITS`: the block the counter has just passed (10_state.md R30). -/
def Engine.passedBlock (v : Variant) (e : Engine) : Nat := (e.ctr v + 2 ^ ctrBits v - 1) % 2 ^ ctrBits v

/-- `Block(W_m, ROUNDS)`, where `W_m` is `W` with its counter set to `m` (43_keystream_combiner.md R170). -/
def Engine.blockAt (v : Variant) (e : Engine) (m : Nat) : Block := block (counterWords v e.w m) e.rounds

/-- `ROUNDS` is one of the seven legal counts, and 20 in IETF (10_state.md R26, R32 item 2). -/
abbrev Engine.RoundsLegal (v : Variant) (e : Engine) : Prop :=
  e.rounds ∈ legalRounds ∧ (v = .ietf → e.rounds = 20)

/-- In IETF `EXH = 1` implies `W[12] = 0`; in ORIGINAL `EXH = 0` (10_state.md R28, R32 item 4). -/
abbrev Engine.ExhLegal (v : Variant) (e : Engine) : Prop :=
  (v = .original → e.exh = false) ∧ (v = .ietf → e.exh = true → e.w[12] = 0)

/-- Buffer invariant: whenever `POS < 64`, `KB` is the block the counter has just passed (10_state.md R30), and the IETF
counter has passed one. -/
abbrev Engine.BufferLegal (v : Variant) (e : Engine) : Prop :=
  e.pos.val < 64 → (v = .ietf → 1 ≤ e.ctr v) ∧ e.kb = e.blockAt v (e.passedBlock v)

/-- The constants of a keyed block are `SIGMA`, or, in ORIGINAL only, `TAU` with the four key words twice (10_state.md R21 to
R23). -/
abbrev Engine.KeyMaterialLegal (v : Variant) (e : Engine) : Prop :=
  (∀ j : Fin 4, e.w[j.val] = sigma[j]) ∨
    (v = .original ∧ (∀ j : Fin 4, e.w[j.val] = tau[j]) ∧ ∀ j : Fin 4, e.w[4 + j.val] = e.w[8 + j.val])

/-- Before the first successful SETKEY nothing has changed since reset (10_state.md R27, R37); after it the key material is
legal. -/
abbrev Engine.SetupLegal (v : Variant) (e : Engine) : Prop :=
  (e.keyed = false → e = Engine.reset) ∧ (e.keyed = true → e.KeyMaterialLegal v)

/-- What every reachable state of the block keeps (10_state.md R32). -/
structure Engine.Inv (v : Variant) (e : Engine) : Prop where
  rounds : e.RoundsLegal v
  exh : e.ExhLegal v
  buffer : e.BufferLegal v
  setup : e.SetupLegal v

/-- The invariant of the machine: that of its block, and no payload is held between commands. -/
structure State.Inv (s : State) : Prop where
  engine : s.engine.Inv s.variant
  payload : s.payload = []

/-- Byte `t` of the keystream sequence `KS(S)` (43_keystream_combiner.md R170): first the unconsumed bytes `KB[POS..63]`, then
the blocks from `CTR` on. -/
def Engine.keystreamByte (v : Variant) (e : Engine) (t : Nat) : Byte :=
  if h : e.pos.val + t < 64 then e.kb[e.pos.val + t]
  else
    let u := t - e.avail
    (e.blockAt v (e.ctr v + u / 64))[u % 64]'(Nat.mod_lt _ (by decide))

/-- Whether `KS(S)` has a byte `t`: in IETF it ends after block `2^32 - 1` (43_keystream_combiner.md R170). -/
def Engine.hasKeystreamByte (v : Variant) (e : Engine) (t : Nat) : Prop :=
  v = .original ∨ t < e.avail + 64 * e.blocksLeft

/-- The three operations of a COMBINE (43_keystream_combiner.md R160 to R162). -/
inductive CombineOp where
  | enc
  | dec
  | gen
deriving DecidableEq, Repr

/-- The command of an operation, for `len` bytes. -/
def CombineOp.instr (op : CombineOp) (len : Nat) : Instr :=
  match op with
  | .enc => .combineEnc len
  | .dec => .combineDec len
  | .gen => .combineGen len

/-- What an operation makes of its keystream bytes and its payload: the exclusive-or, or the keystream itself. -/
def CombineOp.output (op : CombineOp) (ks payload : List Byte) : List Byte :=
  match op with
  | .enc => List.zipWith (· ^^^ ·) ks payload
  | .dec => List.zipWith (· ^^^ ·) ks payload
  | .gen => ks

/-- Whether a COMBINE of `len` bytes has the blocks it needs: always in ORIGINAL; in IETF the blocks it generates, beyond the
`64 - POS` bytes still buffered, must not run past block `2^32 - 1` (43_keystream_combiner.md R167). -/
def Engine.HasBlocksFor (v : Variant) (e : Engine) (len : Nat) : Prop :=
  v = .ietf → (if len ≤ 64 - e.pos.val then 0 else (len - (64 - e.pos.val) + 63) / 64) ≤ 2 ^ 32 - e.ctr .ietf

/-- Two blocks that differ in consumed keystream bytes `KB[0..POS-1]` only: those bytes are never read again
(10_state.md R29, R36). -/
def Engine.SameButConsumed (e f : Engine) : Prop :=
  e.w = f.w ∧ e.rounds = f.rounds ∧ e.keyed = f.keyed ∧ e.exh = f.exh ∧ e.pos = f.pos ∧
    ∀ j : Fin 64, e.pos.val ≤ j.val → e.kb[j] = f.kb[j]

/-- A byte string that begins a command and does not complete it: fewer than 4 header bytes, or a legal header with fewer
than its payload bytes (70_reset_and_hazards.md R272). -/
def IncompleteCommand (bs : List Byte) : Prop :=
  bs.length < 4 ∨ ∃ i, decode (le32 bs 0) = some i ∧ bs.length < 4 + payloadLen i

end Sys2Proof.Machine
end

