-- ==== Sys2Proof/Certificates/Slice0/Obligations.lean ====
section
/-! DEFINITION. The statements about the model, one per definition. Each docstring names the rule of spec/ it formalises. -/

open Sys2Proof Sys2Proof.Machine

/-! ### Encoding (30_encoding.md) -/

/-- `Decode` (R76): total over all headers, by the four fields read as numbers. -/
def Obligations.DecodeFollowsTheFieldChain : Prop :=
  ∀ hdr : Word,
    decode hdr =
      if hdr.toNat % 16 = 1 ∧ hdr.toNat / 16 % 16 = 0 then
        some (.setkey (hdr.toNat / 256 % 256) (hdr.toNat / 65536))
      else if hdr.toNat % 16 = 2 ∧ hdr.toNat / 16 % 16 = 0 ∧ hdr.toNat / 256 % 256 = 0 then
        some (.resync (hdr.toNat / 65536))
      else if hdr.toNat % 16 = 3 ∧ hdr.toNat / 16 % 16 = 0 ∧ hdr.toNat / 256 % 256 = 0 then
        some (.combineEnc (hdr.toNat / 65536))
      else if hdr.toNat % 16 = 3 ∧ hdr.toNat / 16 % 16 = 1 ∧ hdr.toNat / 256 % 256 = 0 then
        some (.combineDec (hdr.toNat / 65536))
      else if hdr.toNat % 16 = 3 ∧ hdr.toNat / 16 % 16 = 2 ∧ hdr.toNat / 256 % 256 = 0 then
        some (.combineGen (hdr.toNat / 65536))
      else if hdr.toNat % 16 = 4 ∧ hdr.toNat / 16 % 16 = 0 ∧ hdr.toNat / 256 % 256 = 0 ∧ hdr.toNat / 65536 = 0 then
        some .seek
      else none

/-- The illegal headers are the classes R77 lists, and the block answers each with `IllegalCommand` and changes no state. -/
def Obligations.IllegalHeadersAreTheListedClasses : Prop :=
  ∀ hdr : Word,
    (decode hdr = none ↔
      (hdr.toNat % 16 = 0 ∨ 5 ≤ hdr.toNat % 16) ∨
      (hdr.toNat % 16 = 3 ∧ 3 ≤ hdr.toNat / 16 % 16) ∨
      ((hdr.toNat % 16 = 1 ∨ hdr.toNat % 16 = 2 ∨ hdr.toNat % 16 = 4) ∧ hdr.toNat / 16 % 16 ≠ 0) ∨
      ((hdr.toNat % 16 = 2 ∨ hdr.toNat % 16 = 3 ∨ hdr.toNat % 16 = 4) ∧ hdr.toNat / 256 % 256 ≠ 0) ∨
      (hdr.toNat % 16 = 4 ∧ hdr.toNat / 65536 ≠ 0)) ∧
    ∀ (p : List Byte) (s : State), decode hdr = none →
      transact hdr p s = .next (s.respond ⟨.illegalCommand, []⟩ s.engine)

/-- The opcode table (R74): `hdr & mask = match` selects the command of the row. -/
def Obligations.OpcodeTableRowsSelectTheirCommands : Prop :=
  ∀ hdr : Word,
    (hdr &&& 0x000000FF = 0x00000001 ↔ ∃ rnd len, decode hdr = some (.setkey rnd len)) ∧
    (hdr &&& 0x0000FFFF = 0x00000002 ↔ ∃ len, decode hdr = some (.resync len)) ∧
    (hdr &&& 0x0000FFFF = 0x00000003 ↔ ∃ len, decode hdr = some (.combineEnc len)) ∧
    (hdr &&& 0x0000FFFF = 0x00000013 ↔ ∃ len, decode hdr = some (.combineDec len)) ∧
    (hdr &&& 0x0000FFFF = 0x00000023 ↔ ∃ len, decode hdr = some (.combineGen len)) ∧
    (hdr &&& 0xFFFFFFFF = 0x00000004 ↔ decode hdr = some .seek)

/-- Decoding the header of a well-formed instruction gives it back, at every operand value (R72, R76, R83). -/
def Obligations.DecodeOfEncode : Prop := ∀ i : Instr, i.wf = true → decode (encode i) = some i

/-- Every legal header is the encoding of the well-formed instruction it decodes to: no two headers mean one command
(R72, R76). -/
def Obligations.EncodeOfDecode : Prop :=
  ∀ (hdr : Word) (i : Instr), decode hdr = some i → i.wf = true ∧ encode i = hdr

/-- A command's bytes at the front of a stream are read back as that command, with the rest of the stream (R71, R80). -/
def Obligations.StreamDecodeOfCommandBytes : Prop :=
  ∀ (i : Instr) (p rest : List Byte), i.wf = true → p.length = payloadLen i →
    decodeStream (commandBytes i p ++ rest) = some (i, p, rest)

/-- Words written out from the encoding tables (R74, R75, R85 and 95_test_vectors.md V-C1): one of each command, and two
illegal ones. -/
def Obligations.SampleHeadersDecode : Prop :=
  decode 0x00201401 = some (.setkey 20 32) ∧ payloadLen (.setkey 20 32) = 32 ∧
  decode 0x000c0002 = some (.resync 12) ∧ payloadLen (.resync 12) = 20 ∧
  decode 0x00320003 = some (.combineEnc 50) ∧ payloadLen (.combineEnc 50) = 50 ∧
  decode 0x00720013 = some (.combineDec 114) ∧ payloadLen (.combineDec 114) = 114 ∧
  decode 0xffff0023 = some (.combineGen 65535) ∧ payloadLen (.combineGen 65535) = 0 ∧
  decode 0x00000004 = some .seek ∧ payloadLen .seek = 8 ∧
  decode 0x00000000 = none ∧ decode 0x00000113 = none

/-! ### Steps, framing and reset -/

/-- A step runs the decoded instruction: when the 4 header bytes at the front of the input stream decode to `i` and its
payload follows, the step is `exec i` with that payload, the stream moved past both (R13, R71, R80). -/
def Obligations.StepRunsTheDecodedCommand : Prop :=
  ∀ (hdr : Word) (i : Instr) (p : List Byte) (rest : List HostEvent) (s : State),
    decode hdr = some i → p.length = payloadLen i → s.input = (bytesLe32 hdr ++ p).map .byte ++ rest →
    step s = exec i { s with payload := p, input := rest }

/-- Framing (R81): an illegal header consumes its 4 bytes only and is answered `IllegalCommand`; a legal header whose command
then fails still consumes its whole payload, and what follows is a new header. -/
def Obligations.FramingOfRejectedCommands : Prop :=
  (∀ (hdr : Word) (rest : List HostEvent) (s : State),
    decode hdr = none → s.input = (bytesLe32 hdr).map .byte ++ rest →
    ∃ t, step s = .next t ∧ t.response = some ⟨.illegalCommand, []⟩ ∧ t.engine = s.engine ∧ t.input = rest) ∧
  (∀ (hdr : Word) (i : Instr) (p : List Byte) (rest : List HostEvent) (s : State),
    decode hdr = some i → p.length = payloadLen i → s.input = (bytesLe32 hdr ++ p).map .byte ++ rest →
    ∃ t r, step s = .next t ∧ t.response = some r ∧ r.status ≠ .illegalCommand ∧ t.input = rest)

/-- A legal header with a payload of the wrong length is `IllegalCommand` and changes no state; on the byte stream this
cannot happen (R82). -/
def Obligations.WrongPayloadLengthIsIllegal : Prop :=
  (∀ (hdr : Word) (i : Instr) (p : List Byte) (s : State), decode hdr = some i → p.length ≠ payloadLen i →
    transact hdr p s = .next (s.respond ⟨.illegalCommand, []⟩ s.engine)) ∧
  (∀ (ev rest : List HostEvent) (hdr : Word) (i : Instr) (p : List Byte),
    fetch ev = .command hdr p rest → decode hdr = some i → p.length = payloadLen i)

/-- Where the host has not sent a complete command the machine has no step (R263, R272; log 3 names the two reasons). -/
def Obligations.MissingHostBytesStopTheStep : Prop :=
  ∀ (bs : List Byte) (s : State), s.input = bs.map .byte → IncompleteCommand bs →
    step s = .fault (if bs.length < 4 then .waitingForHeader else .waitingForPayload)

/-- Reset at any time (R260): the command in progress is abandoned, every element takes its reset value, and the next byte is
the first of a header. How much of the last response the host had received is the model's choice (log 6): the event's own
number when the block was idle, all of it when bytes of a further command had come. -/
def Obligations.ResetAbandonsTheCommandInProgress : Prop :=
  ∀ (bs : List Byte) (delivered : Nat) (rest : List HostEvent) (s : State),
    s.input = bs.map .byte ++ .reset delivered :: rest → IncompleteCommand bs →
    step s = .next
      { variant := s.variant, engine := Engine.reset, payload := [], input := rest, response := none,
        sent := if bs = [] then s.sent ++ s.responseBytes.take delivered else s.output }

/-- After reset every element holds the value of R37, and no command can observe the reset values of `W`, `ROUNDS` and `KB`:
two unkeyed blocks of one build answer every command alike, and a SETKEY that succeeds leaves them alike but for buffer
bytes that are not read again. -/
def Obligations.ResetValuesAreUnobservable : Prop :=
  (∀ v : Variant,
    (∀ j : Fin 16, (State.resetOf v).engine.w[j] = 0) ∧ (State.resetOf v).engine.rounds = 20 ∧
    (State.resetOf v).engine.keyed = false ∧ (State.resetOf v).engine.exh = false ∧
    (∀ j : Fin 64, (State.resetOf v).engine.kb[j] = 0) ∧ (State.resetOf v).engine.pos = 64) ∧
  (∀ (hdr : Word) (p : List Byte) (s t : State),
    s.variant = t.variant → s.engine.keyed = false → t.engine.keyed = false →
    ∃ s' t', transact hdr p s = .next s' ∧ transact hdr p t = .next t' ∧ s'.response = t'.response ∧
      ((s'.engine = s.engine ∧ t'.engine = t.engine) ∨ s'.engine.SameButConsumed t'.engine))

/-- The state after reset of either build meets the invariant (R32, R37). -/
def Obligations.ResetMeetsTheInvariant : Prop := ∀ v : Variant, (State.resetOf v).Inv

/-- Every step keeps the invariant: the round count legal, `EXH` as R32 says, the buffer holding the block the counter has just
passed (R30), the constants and key words legal (R21 to R23), the block untouched until the first successful SETKEY (R27). No
step changes the variant (R6). -/
def Obligations.StepKeepsTheInvariant : Prop :=
  ∀ s t : State, s.Inv → step s = .next t → t.Inv ∧ t.variant = s.variant

/-! ### Responses and errors -/

/-- Every command, legal or not, on every state, ends with exactly one response, appended to the output stream as the status
byte and the output bytes (R13, R71, R263, R273); the variant and the unread input stay. -/
def Obligations.EveryTransactionAnswersOnce : Prop :=
  ∀ (hdr : Word) (p : List Byte) (s : State),
    ∃ t r, transact hdr p s = .next t ∧ t.response = some r ∧ t.output = s.output ++ r.status.code :: r.out ∧
      t.payload = [] ∧ t.input = s.input ∧ t.variant = s.variant

/-- The status codes (R78): their values, and which command raises each. -/
def Obligations.StatusesAreRaisedByTheirCommands : Prop :=
  (Status.code .ok = 0x00 ∧ Status.code .invalidKeyLength = 0x01 ∧ Status.code .invalidIVLength = 0x02 ∧
    Status.code .invalidRounds = 0x03 ∧ Status.code .invalidSeek = 0x04 ∧ Status.code .counterOverflow = 0x05 ∧
    Status.code .notKeyed = 0x06 ∧ Status.code .illegalCommand = 0x07) ∧
  (∀ (hdr : Word) (p : List Byte) (s t : State) (r : Response),
    transact hdr p s = .next t → t.response = some r →
    (r.status = .invalidKeyLength → ∃ rnd len, decode hdr = some (.setkey rnd len)) ∧
    (r.status = .invalidIVLength → ∃ len, decode hdr = some (.resync len)) ∧
    (r.status = .invalidRounds → s.variant = .original ∧ ∃ rnd len, decode hdr = some (.setkey rnd len)) ∧
    (r.status = .invalidSeek →
      decode hdr = some .seek ∨ ∃ len, decode hdr = some (.resync len) ∧ 2 ^ ctrBits s.variant ≤ (le64 (p.drop len) 0).toNat) ∧
    (r.status = .counterOverflow → s.variant = .ietf ∧ ∃ op len, decode hdr = some (CombineOp.instr op len)) ∧
    (r.status = .notKeyed → s.engine.keyed = false ∧
      (decode hdr = some .seek ∨ (∃ len, decode hdr = some (.resync len)) ∨
        ∃ op len, decode hdr = some (CombineOp.instr op len))) ∧
    (r.status = .illegalCommand ↔ ∀ i, decode hdr = some i → p.length ≠ payloadLen i))

/-- `out` has exactly `LEN` bytes for a COMBINE that succeeds and is empty for every other response (R79). -/
def Obligations.OutputOnlyFromSuccessfulCombine : Prop :=
  ∀ (hdr : Word) (p : List Byte) (s t : State) (r : Response),
    transact hdr p s = .next t → t.response = some r →
    (∀ op len, decode hdr = some (CombineOp.instr op len) → r.status = .ok → r.out.length = len) ∧
    ((r.status ≠ .ok ∨ ∀ op len, decode hdr ≠ some (CombineOp.instr op len)) → r.out = [])

/-- No partial mutation (R224). -/
def Obligations.FailedCommandsChangeNothing : Prop :=
  ∀ (hdr : Word) (p : List Byte) (s t : State) (r : Response),
    transact hdr p s = .next t → t.response = some r → r.status ≠ .ok → t.engine = s.engine ∧ r.out = []

/-- Priority when several errors apply (R225): the first check that fails decides the status. -/
def Obligations.ErrorPriority : Prop :=
  (∀ (hdr : Word) (p : List Byte) (s : State),
    (∀ i, decode hdr = some i → p.length ≠ payloadLen i) →
    transact hdr p s = .next (s.respond ⟨.illegalCommand, []⟩ s.engine)) ∧
  (∀ (i : Instr) (s : State), s.payload.length = payloadLen i → (∀ rnd len, i ≠ .setkey rnd len) →
    s.engine.keyed = false → exec i s = .next (s.respond ⟨.notKeyed, []⟩ s.engine)) ∧
  (∀ (rnd len : Nat) (s : State), s.payload.length = len →
    (keyBytesOk s.variant len = false →
      exec (.setkey rnd len) s = .next (s.respond ⟨.invalidKeyLength, []⟩ s.engine)) ∧
    (keyBytesOk s.variant len = true → roundsOk s.variant rnd = false →
      exec (.setkey rnd len) s = .next (s.respond ⟨.invalidRounds, []⟩ s.engine))) ∧
  (∀ (len : Nat) (s : State), s.payload.length = len + 8 → s.engine.keyed = true →
    (len ≠ nonceBytes s.variant → exec (.resync len) s = .next (s.respond ⟨.invalidIVLength, []⟩ s.engine)) ∧
    (len = nonceBytes s.variant → 2 ^ ctrBits s.variant ≤ (le64 (s.payload.drop len) 0).toNat →
      exec (.resync len) s = .next (s.respond ⟨.invalidSeek, []⟩ s.engine))) ∧
  (∀ (op : CombineOp) (len : Nat) (s : State), s.payload.length = payloadLen (op.instr len) → s.engine.keyed = true →
    ¬ s.engine.HasBlocksFor s.variant len →
    exec (op.instr len) s = .next (s.respond ⟨.counterOverflow, []⟩ s.engine)) ∧
  (∀ s : State, s.payload.length = 8 → s.engine.keyed = true → 2 ^ ctrBits s.variant ≤ (le64 s.payload 0).toNat →
    exec .seek s = .next (s.respond ⟨.invalidSeek, []⟩ s.engine))

/-- `KEYED` (R27, R222): 0 after reset, 1 after a successful SETKEY, cleared by no command; while it is 0 every other
command raises `NotKeyed`, and SETKEY never does. -/
def Obligations.KeyedOnlyBySetkey : Prop :=
  (∀ v : Variant, (State.resetOf v).engine.keyed = false) ∧
  (∀ (i : Instr) (s t : State) (r : Response), exec i s = .next t → t.response = some r →
    (s.engine.keyed = true → t.engine.keyed = true) ∧
    ((∀ rnd len, i ≠ .setkey rnd len) → t.engine.keyed = s.engine.keyed) ∧
    (∀ rnd len, i = .setkey rnd len → r.status ≠ .notKeyed ∧ (r.status = .ok → t.engine.keyed = true))) ∧
  (∀ (i : Instr) (s : State), s.payload.length = payloadLen i → (∀ rnd len, i ≠ .setkey rnd len) →
    s.engine.keyed = false → exec i s = .next (s.respond ⟨.notKeyed, []⟩ s.engine))

/-- Which command writes which element (R33): an element not named is left unchanged, and a command that fails writes
nothing. -/
def Obligations.CommandsWriteOnlyTheirElements : Prop :=
  ∀ (i : Instr) (s t : State) (r : Response), exec i s = .next t → t.response = some r →
    (r.status ≠ .ok → t.engine = s.engine) ∧
    (r.status = .ok →
      (∀ rnd len, i = .setkey rnd len →
        (∀ j : Fin 16, 12 ≤ j.val → t.engine.w[j] = 0) ∧ t.engine.keyed = true ∧ t.engine.exh = false ∧
        t.engine.pos = 64 ∧ t.engine.kb = s.engine.kb) ∧
      (∀ len, i = .resync len →
        (∀ j : Fin 16, j.val < 12 → t.engine.w[j] = s.engine.w[j]) ∧
        t.engine.ctr s.variant = (le64 (s.payload.drop len) 0).toNat ∧
        t.engine.rounds = s.engine.rounds ∧ t.engine.keyed = s.engine.keyed ∧ t.engine.exh = false ∧
        t.engine.kb = s.engine.kb ∧ t.engine.pos = 64) ∧
      (∀ op len, i = CombineOp.instr op len →
        (∀ j : Fin 16, j.val < 12 ∨ 14 ≤ j.val ∨ (j.val = 13 ∧ s.variant = .ietf) → t.engine.w[j] = s.engine.w[j]) ∧
        t.engine.rounds = s.engine.rounds ∧ t.engine.keyed = s.engine.keyed ∧
        (s.variant = .original → t.engine.exh = s.engine.exh) ∧
        (s.variant = .ietf → s.engine.exh = true → t.engine.exh = true) ∧
        (s.variant = .ietf → s.engine.exh = false →
          (t.engine.exh = true ↔ s.engine.ctr .ietf + s.engine.blocksNeeded len = 2 ^ 32))) ∧
      (i = .seek →
        (∀ j : Fin 16, j.val < 12 ∨ 14 ≤ j.val ∨ (j.val = 13 ∧ s.variant = .ietf) → t.engine.w[j] = s.engine.w[j]) ∧
        t.engine.ctr s.variant = (le64 s.payload 0).toNat ∧
        t.engine.rounds = s.engine.rounds ∧ t.engine.keyed = s.engine.keyed ∧ t.engine.exh = false ∧
        t.engine.kb = s.engine.kb ∧ t.engine.pos = 64))

/-! ### state_init_unit (41_state_init.md) -/

/-- SETKEY with a legal key length and round count succeeds and builds the state (R100, R22, R23); `KB` stays. -/
def Obligations.SetkeyBuildsTheState : Prop :=
  ∀ (rnd len : Nat) (s : State), s.payload.length = len →
    (len = 32 ∨ (len = 16 ∧ s.variant = .original)) →
    (s.variant = .original → rnd = 8 ∨ rnd = 10 ∨ rnd = 12 ∨ rnd = 14 ∨ rnd = 16 ∨ rnd = 18 ∨ rnd = 20) →
    ∃ e : Engine, exec (.setkey rnd len) s = .next (s.respond ⟨.ok, []⟩ e) ∧
      e.w[0] = 0x61707865 ∧ e.w[1] = (if len = 32 then 0x3320646e else 0x3120646e) ∧
      e.w[2] = (if len = 32 then 0x79622d32 else 0x79622d36) ∧ e.w[3] = 0x6b206574 ∧
      (∀ j : Fin 8, e.w[4 + j.val] = le32 s.payload (if len = 32 then j.val else j.val % 4)) ∧
      (∀ j : Fin 4, e.w[12 + j.val] = 0) ∧
      e.rounds = (if s.variant = .original then rnd else 20) ∧
      e.keyed = true ∧ e.exh = false ∧ e.pos = 64 ∧ e.kb = s.engine.kb

/-- The key length is checked before the round count (R101). -/
def Obligations.SetkeyChecksKeyLengthFirst : Prop :=
  ∀ (rnd len : Nat) (s : State), s.payload.length = len →
    (¬ (len = 32 ∨ (len = 16 ∧ s.variant = .original)) →
      exec (.setkey rnd len) s = .next (s.respond ⟨.invalidKeyLength, []⟩ s.engine)) ∧
    ((len = 32 ∨ len = 16) → s.variant = .original → ¬ (rnd % 2 = 0 ∧ 8 ≤ rnd ∧ rnd ≤ 20) →
      exec (.setkey rnd len) s = .next (s.respond ⟨.invalidRounds, []⟩ s.engine))

/-- In IETF SETKEY ignores `RND` completely (R103). -/
def Obligations.IetfSetkeyIgnoresRounds : Prop :=
  ∀ (rnd rnd' len : Nat) (s t : State) (r : Response), s.variant = .ietf →
    exec (.setkey rnd len) s = .next t → t.response = some r →
    exec (.setkey rnd' len) s = .next t ∧ r.status ≠ .invalidRounds ∧ (r.status = .ok → t.engine.rounds = 20)

/-- A SETKEY builds the state afresh (R104): its result does not depend on the state before it, the nonce and counter are
zero, the buffer is empty and `EXH` is 0. (`KB`'s bytes stay, and are not read again.) -/
def Obligations.SetkeyBuildsAfresh : Prop :=
  ∀ (rnd len : Nat) (s t s' : State), s.variant = t.variant → s.payload = t.payload →
    exec (.setkey rnd len) s = .next s' → s'.response = some ⟨.ok, []⟩ →
    ∃ t', exec (.setkey rnd len) t = .next t' ∧ t'.response = some ⟨.ok, []⟩ ∧
      s'.engine.SameButConsumed t'.engine ∧ (∀ j : Fin 4, s'.engine.w[12 + j.val] = 0) ∧
      s'.engine.pos = 64 ∧ s'.engine.exh = false

/-- RESYNC with the right IV length and an initial block that fits succeeds: it sets the counter and the nonce words, clears
`EXH` and empties the buffer, and leaves `W[0..11]`, `ROUNDS`, `KEYED` and `KB` (R110, R24, R52, R53). -/
def Obligations.ResyncSetsNonceAndCounter : Prop :=
  ∀ (len : Nat) (s : State), s.engine.keyed = true → s.payload.length = len + 8 →
    len = (match s.variant with | .original => 8 | .ietf => 12) →
    (s.variant = .ietf → (le64 (s.payload.drop len) 0).toNat < 2 ^ 32) →
    ∃ e : Engine, exec (.resync len) s = .next (s.respond ⟨.ok, []⟩ e) ∧
      e.ctr s.variant = (le64 (s.payload.drop len) 0).toNat ∧
      (s.variant = .original → e.w[14] = le32 s.payload 0 ∧ e.w[15] = le32 s.payload 1) ∧
      (s.variant = .ietf → e.w[13] = le32 s.payload 0 ∧ e.w[14] = le32 s.payload 1 ∧ e.w[15] = le32 s.payload 2) ∧
      (∀ j : Fin 12, e.w[j.val] = s.engine.w[j.val]) ∧
      e.rounds = s.engine.rounds ∧ e.keyed = true ∧ e.exh = false ∧ e.pos = 64 ∧ e.kb = s.engine.kb

/-- The initial block must fit the counter (R111): otherwise `InvalidSeek` with no change, which cannot happen in ORIGINAL; the
IV length is checked first. -/
def Obligations.ResyncInitialBlockMustFit : Prop :=
  ∀ (len : Nat) (s : State), s.engine.keyed = true → s.payload.length = len + 8 →
    (len = nonceBytes s.variant → 2 ^ ctrBits s.variant ≤ (le64 (s.payload.drop len) 0).toNat →
      s.variant = .ietf ∧ exec (.resync len) s = .next (s.respond ⟨.invalidSeek, []⟩ s.engine)) ∧
    (len ≠ nonceBytes s.variant → exec (.resync len) s = .next (s.respond ⟨.invalidIVLength, []⟩ s.engine))

/-- A RESYNC's result does not depend on the counter, the nonce, `EXH` or the buffer before it, and it may be issued any number of
times (R112). -/
def Obligations.ResyncForgetsThePast : Prop :=
  ∀ (len : Nat) (s t s' : State), s.variant = t.variant → s.payload = t.payload →
    (∀ j : Fin 12, s.engine.w[j.val] = t.engine.w[j.val]) → s.engine.rounds = t.engine.rounds →
    s.engine.keyed = t.engine.keyed →
    exec (.resync len) s = .next s' → s'.response = some ⟨.ok, []⟩ →
    ∃ t', exec (.resync len) t = .next t' ∧ t'.response = some ⟨.ok, []⟩ ∧ s'.engine.SameButConsumed t'.engine

/-! ### keystream_combiner_with_counter (43_keystream_combiner.md) -/

/-- COMBINE succeeds whenever the block is keyed and has the blocks it needs: it emits the first `LEN` bytes of the keystream
sequence, exclusive-ored with the payload for ENC and DEC, and leaves the sequence without those bytes: the sequence left has a byte `t`
exactly when the old one has a byte `LEN + t`, and it is that byte. Of the block's state only the counter words, `EXH`, `KB` and
`POS` may change (R160 to R163, R168, R170). -/
def Obligations.CombineEmitsTheKeystream : Prop :=
  ∀ (op : CombineOp) (len : Nat) (s : State), s.engine.keyed = true →
    s.payload.length = payloadLen (op.instr len) → s.engine.HasBlocksFor s.variant len →
    ∃ e : Engine,
      exec (op.instr len) s =
        .next (s.respond ⟨.ok, op.output ((List.range len).map (s.engine.keystreamByte s.variant)) s.payload⟩ e) ∧
      (∀ t, e.hasKeystreamByte s.variant t ↔ s.engine.hasKeystreamByte s.variant (len + t)) ∧
      (∀ t, e.hasKeystreamByte s.variant t →
        e.keystreamByte s.variant t = s.engine.keystreamByte s.variant (len + t)) ∧
      (∀ j : Fin 16, j.val < 12 ∨ 14 ≤ j.val ∨ (j.val = 13 ∧ s.variant = .ietf) → e.w[j] = s.engine.w[j]) ∧
      e.rounds = s.engine.rounds ∧ e.keyed = true

/-- Split invariance (R170): where a COMBINE of `L1 + L2` bytes succeeds with keystream bytes `ks`, a COMBINE of `L1` bytes followed
by a COMBINE of `L2` succeed, use the first `L1` and the other `L2` bytes of `ks`, whatever the three operations, and leave the
same block. -/
def Obligations.CombineSplits : Prop :=
  ∀ (op op1 op2 : CombineOp) (l1 l2 : Nat) (p p1 p2 ks : List Byte) (s t : State),
    p.length = payloadLen (op.instr (l1 + l2)) → p1.length = payloadLen (op1.instr l1) →
    p2.length = payloadLen (op2.instr l2) → ks.length = l1 + l2 →
    exec (op.instr (l1 + l2)) { s with payload := p } = .next t → t.response = some ⟨.ok, op.output ks p⟩ →
    ∃ t1 t2,
      exec (op1.instr l1) { s with payload := p1 } = .next t1 ∧
      t1.response = some ⟨.ok, op1.output (ks.take l1) p1⟩ ∧
      exec (op2.instr l2) { t1 with payload := p2 } = .next t2 ∧
      t2.response = some ⟨.ok, op2.output (ks.drop l1) p2⟩ ∧
      t2.engine = t.engine

/-- Involution (R171): from the same state COMBINE.DEC of the output of COMBINE.ENC on `P` returns `P`; and where the buffer is
empty a SEEK to the starting block returns to such a state. -/
def Obligations.CombineInvolution : Prop :=
  ∀ (len : Nat) (s t : State) (c : List Byte), exec (.combineEnc len) s = .next t → t.response = some ⟨.ok, c⟩ →
    (∃ u, exec (.combineDec len) { s with payload := c } = .next u ∧ u.response = some ⟨.ok, s.payload⟩) ∧
    (s.engine.pos = 64 → s.engine.exh = false →
      ∃ u u', exec .seek { t with payload := bytesLe64 (BitVec.ofNat 64 (s.engine.ctr s.variant)) } = .next u ∧
        exec (.combineDec len) { u with payload := c } = .next u' ∧ u'.response = some ⟨.ok, s.payload⟩)

/-- A COMBINE with `LEN = 0` on a keyed block succeeds, emits nothing and changes no state (R169), in every state of the buffer
and the counter. -/
def Obligations.CombineOfNothingChangesNothing : Prop :=
  ∀ (op : CombineOp) (s : State), s.engine.keyed = true → s.payload = [] →
    exec (op.instr 0) s = .next (s.respond ⟨.ok, []⟩ s.engine)

/-- `CounterOverflow` (R167): on a keyed block it is raised exactly when, in IETF, more blocks are needed than are left; once the
counter is exhausted the buffered bytes can still be used and nothing more. -/
def Obligations.OverflowExactlyWhenBlocksRunOut : Prop :=
  ∀ (op : CombineOp) (len : Nat) (s : State), s.engine.keyed = true → s.payload.length = payloadLen (op.instr len) →
    (exec (op.instr len) s = .next (s.respond ⟨.counterOverflow, []⟩ s.engine) ↔
      s.variant = .ietf ∧
        2 ^ 32 - s.engine.ctr .ietf <
          (if len ≤ 64 - s.engine.pos.val then 0 else (len - (64 - s.engine.pos.val) + 63) / 64)) ∧
    (s.variant = .ietf → s.engine.exh = true →
      (exec (op.instr len) s = .next (s.respond ⟨.counterOverflow, []⟩ s.engine) ↔ 64 - s.engine.pos.val < len))

/-- The counter counts blocks generated (R172): a COMBINE that succeeds advances `CTR` by the number of blocks it needs beyond the
buffered bytes (modulo `2^64` in ORIGINAL, R165), and leaves the cursor after the last byte used. -/
def Obligations.CombineCountsBlocks : Prop :=
  ∀ (op : CombineOp) (len : Nat) (s t : State) (out : List Byte),
    exec (op.instr len) s = .next t → t.response = some ⟨.ok, out⟩ →
    (s.variant = .original →
      t.engine.ctr .original = (s.engine.ctr .original + s.engine.blocksNeeded len) % 2 ^ 64) ∧
    (s.variant = .ietf → t.engine.ctr .ietf = s.engine.ctr .ietf + s.engine.blocksNeeded len) ∧
    t.engine.pos.val =
      if len ≤ 64 - s.engine.pos.val then s.engine.pos.val + len else (len - (64 - s.engine.pos.val) - 1) % 64 + 1

/-- `Advance()` counts one block: ORIGINAL carries from word 12 into word 13 and wraps modulo `2^64` (R165); IETF reaches `2^32` with
`EXH` set and word 12 at 0 (R166). No other word, and nothing else of the block, changes. -/
def Obligations.AdvanceCountsOneBlock : Prop :=
  ∀ (v : Variant) (e : Engine),
    (v = .original → (e.advance v).ctr v = (e.ctr v + 1) % 2 ^ 64 ∧ (e.advance v).exh = e.exh) ∧
    (v = .ietf → e.exh = false →
      (e.advance v).ctr v = e.ctr v + 1 ∧ ((e.advance v).exh = true ↔ e.w[12] = 0xFFFFFFFF) ∧
      ((e.advance v).exh = true → (e.advance v).w[12] = 0)) ∧
    (∀ j : Fin 16, j.val < 12 ∨ 14 ≤ j.val ∨ (j.val = 13 ∧ v = .ietf) → (e.advance v).w[j] = e.w[j]) ∧
    (e.advance v).rounds = e.rounds ∧ (e.advance v).keyed = e.keyed ∧ (e.advance v).kb = e.kb ∧
    (e.advance v).pos = e.pos

/-! ### seek_controller (44_seek.md) -/

/-- SEEK with an index that fits succeeds: the counter at block `n`, `EXH` 0, the buffer empty, and nothing else changed
(R200). -/
def Obligations.SeekSetsTheCounter : Prop :=
  ∀ s : State, s.engine.keyed = true → s.payload.length = 8 →
    (s.variant = .ietf → (le64 s.payload 0).toNat < 2 ^ 32) →
    ∃ e : Engine, exec .seek s = .next (s.respond ⟨.ok, []⟩ e) ∧ e.ctr s.variant = (le64 s.payload 0).toNat ∧
      e.exh = false ∧ e.pos = 64 ∧
      (∀ j : Fin 16, j.val < 12 ∨ 14 ≤ j.val ∨ (j.val = 13 ∧ s.variant = .ietf) → e.w[j] = s.engine.w[j]) ∧
      e.rounds = s.engine.rounds ∧ e.keyed = true ∧ e.kb = s.engine.kb

/-- SEEK's range check (R201): up to `2^32 - 1` in IETF; in ORIGINAL `InvalidSeek` is never raised. -/
def Obligations.SeekRangeCheck : Prop :=
  ∀ s : State, s.engine.keyed = true → s.payload.length = 8 →
    (s.variant = .ietf → 2 ^ 32 - 1 < (le64 s.payload 0).toNat →
      exec .seek s = .next (s.respond ⟨.invalidSeek, []⟩ s.engine)) ∧
    (s.variant = .original ∨ (le64 s.payload 0).toNat ≤ 2 ^ 32 - 1 →
      ∃ t, exec .seek s = .next t ∧ t.response = some ⟨.ok, []⟩)

/-- SEEK never touches the nonce, the key, the constants or `ROUNDS`, nor the rest of the configuration (R202, R31), whether it
succeeds or fails. -/
def Obligations.SeekKeepsTheConfiguration : Prop :=
  ∀ s t : State, exec .seek s = .next t →
    (∀ j : Fin 16, j.val < 12 ∨ 14 ≤ j.val ∨ (j.val = 13 ∧ s.variant = .ietf) → t.engine.w[j] = s.engine.w[j]) ∧
    t.engine.rounds = s.engine.rounds ∧ t.engine.keyed = s.engine.keyed

/-- Random-access equivalence (R204): after SEEK `k` the next 64 keystream bytes are `Block(W_k, ROUNDS)`, which is what block `k` of
a run from counter 0 gives after blocks 0 to `k - 1` are made and discarded. -/
def Obligations.RandomAccess : Prop :=
  ∀ (k : Nat) (s : State), s.engine.keyed = true → k < 2 ^ ctrBits s.variant →
    (∃ t u, exec .seek { s with payload := bytesLe64 (BitVec.ofNat 64 k) } = .next t ∧
      exec (.combineGen 64) t = .next u ∧
      u.response = some ⟨.ok, (s.engine.blockAt s.variant k).toList⟩) ∧
    ((Engine.combineLoop s.variant (List.replicate (64 * k + 64) none)
        { s.engine.setCtr s.variant 0 with pos := 64 }).1.drop (64 * k)
      = (s.engine.blockAt s.variant k).toList)

/-! ### What the host can tell apart -/

/-- Consumed buffer bytes are never observable (R29, R36): blocks that differ in `KB[0..POS-1]` only answer every command alike, and
still differ there only. -/
def Obligations.ConsumedBytesAreUnobservable : Prop :=
  ∀ (hdr : Word) (p : List Byte) (s t : State), s.variant = t.variant → s.engine.SameButConsumed t.engine →
    ∃ s' t', transact hdr p s = .next s' ∧ transact hdr p t = .next t' ∧ s'.response = t'.response ∧
      s'.engine.SameButConsumed t'.engine

/-- The block keeps no record of past responses (R35, R220): a step's effect and response depend on the variant, the block's own
state and the input stream alone (R59, R266). -/
def Obligations.PastResponsesAreUnobservable : Prop :=
  ∀ s t s' : State, s.variant = t.variant → s.engine = t.engine → s.input = t.input → step s = .next s' →
    ∃ t', step t = .next t' ∧ t'.variant = s'.variant ∧ t'.engine = s'.engine ∧ t'.input = s'.input ∧
      t'.response = s'.response ∧ t'.payload = s'.payload

/-! ### The diffusion datapath (42_diffusion.md) -/

/-- `rotl32` moves bit `i` to bit `(i + n) mod 32` (R130). -/
def Obligations.RotationMovesBits : Prop :=
  (∀ (x : Word) (n i : Nat), n = 7 ∨ n = 8 ∨ n = 12 ∨ n = 16 → i < 32 →
    (rotl32 x n).getLsbD ((i + n) % 32) = x.getLsbD i) ∧
  rotl32 0x12345678 8 = 0x34567812

/-- Within one pass the four quarter-rounds commute, and the two passes do not (R135). -/
def Obligations.QuarterRoundsOfAPassCommute : Prop :=
  (∀ (order : List (Fin 16 × Fin 16 × Fin 16 × Fin 16)) (x : Words),
    order.Perm [(0, 4, 8, 12), (1, 5, 9, 13), (2, 6, 10, 14), (3, 7, 11, 15)] →
    order.foldl (fun y g => quarterRoundAt y g.1 g.2.1 g.2.2.1 g.2.2.2) x = columnPass x) ∧
  (∀ (order : List (Fin 16 × Fin 16 × Fin 16 × Fin 16)) (x : Words),
    order.Perm [(0, 5, 10, 15), (1, 6, 11, 12), (2, 7, 8, 13), (3, 4, 9, 14)] →
    order.foldl (fun y g => quarterRoundAt y g.1 g.2.1 g.2.2.1 g.2.2.2) x = diagonalPass x) ∧
  (∃ x : Words, columnPass (diagonalPass x) ≠ diagonalPass (columnPass x))

/-- `Serialize` (R137): byte `4i + b` is bits `8b+7 : 8b` of word `i`; in other words, the words' little-endian bytes one after
the other. -/
def Obligations.SerializationIsLittleEndian : Prop :=
  ∀ z : Words,
    (∀ (i : Fin 16) (b : Fin 4),
      (serialize z)[4 * i.val + b.val]'(by omega) = (z[i] >>> (8 * b.val)).setWidth 8) ∧
    (serialize z).toList = z.toList.flatMap bytesLe32

/-- `Diffuse` and `Block` (R136, R138): for every even round count `2k`, output word `i` is word `i` of the state after `k`
double-rounds plus word `i` of the input, and block byte `4i + b` is bits `8b+7 : 8b` of that sum; a refill makes the block of
the state as it stands, with `r` always `ROUNDS`. -/
def Obligations.DiffuseFeedsForward : Prop :=
  (∀ (x : Words) (k : Nat) (i : Fin 16),
    (diffuse x (2 * k))[i] = (doubleRound^[k] x)[i] + x[i] ∧
    ∀ b : Fin 4, (block x (2 * k))[4 * i.val + b.val]'(by omega) =
      (((doubleRound^[k] x)[i] + x[i]) >>> (8 * b.val)).setWidth 8) ∧
  (∀ (v : Variant) (e : Engine), (e.refill v).kb = block e.w e.rounds)

/-- Reference values (R141, R143; 95_test_vectors.md V-Q1, V-D3, V-B1, V-B2, V-O1): the RFC 8439 quarter-round, one double-round of
the all-zero IETF state, the two RFC 8439 blocks of 20 rounds, and the 8-round block of the all-zero 16-byte key. -/
def Obligations.ReferenceRounds : Prop :=
  quarterRound 0x11111111 0x01020304 0x9b8d6f43 0x01234567 = (0xea2a92f4, 0xcb1cf8ce, 0x4581472e, 0x5881c4bb) ∧
  doubleRound #v[0x61707865, 0x3320646e, 0x79622d32, 0x6b206574, 0, 0, 0, 0, 0, 0, 0, 0, 0, 0, 0, 0] =
    #v[0xe45fd249, 0x1bb820a6, 0xe31a88ea, 0xe667a9fe, 0x2a3bf673, 0x86bf4098, 0x460b500a, 0xfa169886,
       0x538dca0e, 0x0c439641, 0x00fa16bc, 0x8a08812a, 0x6bbf8b09, 0xc33013d6, 0xbb9f9849, 0x87c62165] ∧
  block #v[0x61707865, 0x3320646e, 0x79622d32, 0x6b206574, 0x03020100, 0x07060504, 0x0b0a0908, 0x0f0e0d0c,
      0x13121110, 0x17161514, 0x1b1a1918, 0x1f1e1d1c, 0x00000001, 0x09000000, 0x4a000000, 0x00000000] 20 =
    #v[0x10, 0xf1, 0xe7, 0xe4, 0xd1, 0x3b, 0x59, 0x15, 0x50, 0x0f, 0xdd, 0x1f, 0xa3, 0x20, 0x71, 0xc4,
       0xc7, 0xd1, 0xf4, 0xc7, 0x33, 0xc0, 0x68, 0x03, 0x04, 0x22, 0xaa, 0x9a, 0xc3, 0xd4, 0x6c, 0x4e,
       0xd2, 0x82, 0x64, 0x46, 0x07, 0x9f, 0xaa, 0x09, 0x14, 0xc2, 0xd7, 0x05, 0xd9, 0x8b, 0x02, 0xa2,
       0xb5, 0x12, 0x9c, 0xd1, 0xde, 0x16, 0x4e, 0xb9, 0xcb, 0xd0, 0x83, 0xe8, 0xa2, 0x50, 0x3c, 0x4e] ∧
  block #v[0x61707865, 0x3320646e, 0x79622d32, 0x6b206574, 0, 0, 0, 0, 0, 0, 0, 0, 0, 0, 0, 0] 20 =
    #v[0x76, 0xb8, 0xe0, 0xad, 0xa0, 0xf1, 0x3d, 0x90, 0x40, 0x5d, 0x6a, 0xe5, 0x53, 0x86, 0xbd, 0x28,
       0xbd, 0xd2, 0x19, 0xb8, 0xa0, 0x8d, 0xed, 0x1a, 0xa8, 0x36, 0xef, 0xcc, 0x8b, 0x77, 0x0d, 0xc7,
       0xda, 0x41, 0x59, 0x7c, 0x51, 0x57, 0x48, 0x8d, 0x77, 0x24, 0xe0, 0x3f, 0xb8, 0xd8, 0x4a, 0x37,
       0x6a, 0x43, 0xb8, 0xf4, 0x15, 0x18, 0xa1, 0x1c, 0xc3, 0x87, 0xb6, 0x69, 0xb2, 0xee, 0x65, 0x86] ∧
  block #v[0x61707865, 0x3120646e, 0x79622d36, 0x6b206574, 0, 0, 0, 0, 0, 0, 0, 0, 0, 0, 0, 0] 8 =
    #v[0xe2, 0x8a, 0x5f, 0xa4, 0xa6, 0x7f, 0x8c, 0x5d, 0xef, 0xed, 0x3e, 0x6f, 0xb7, 0x30, 0x34, 0x86,
       0xaa, 0x84, 0x27, 0xd3, 0x14, 0x19, 0xa7, 0x29, 0x57, 0x2d, 0x77, 0x79, 0x53, 0x49, 0x11, 0x20,
       0xb6, 0x4a, 0xb8, 0xe7, 0x2b, 0x8d, 0xeb, 0x85, 0xcd, 0x6a, 0xea, 0x7c, 0xb6, 0x08, 0x9a, 0x10,
       0x18, 0x24, 0xbe, 0xeb, 0x08, 0x81, 0x4a, 0x42, 0x8a, 0xab, 0x1f, 0xa2, 0xc8, 0x16, 0x08, 0x1b]

/-- Byte order of operands (R10, R53): a word or a 64-bit operand sent least significant byte first is read back as itself. -/
def Obligations.OperandsAreLittleEndian : Prop :=
  (∀ (w : Word) (rest : List Byte), le32 (bytesLe32 w ++ rest) 0 = w) ∧
  (∀ (n : BitVec 64) (rest : List Byte), le64 (bytesLe64 n ++ rest) 0 = n) ∧
  (∀ (n : BitVec 64) (k : Fin 8), (bytesLe64 n)[k.val]? = some ((n >>> (8 * k.val)).setWidth 8))

/-! ### Assembler (30_encoding.md R83, R84) -/

/-- Whatever a line assembles to is a list of legal headers, each with a payload of the right length (R83). -/
def Obligations.AssembledCommandsAreComplete : Prop :=
  ∀ (line : AsmLine) (cmds : List AsmCommand), assemble line = some cmds →
    ∀ c ∈ cmds, ∃ i, decode c.1 = some i ∧ c.2.length = payloadLen i

/-- The pseudo-instructions and their expansions, with the defaults `rounds = 20` and `initialBlock = 0` (R84): each assembles as its
expansion does, and `ENCRYPT.LONG` as COMBINE.ENC commands of 65535 bytes and a last one with the remainder. -/
def Obligations.PseudoInstructionsExpand : Prop :=
  (∀ key, assemble (.setkeyDefault key) = assemble (.setkey 20 key)) ∧
  (∀ iv, assemble (.resyncDefault iv) = assemble (.resync iv 0)) ∧
  (∀ data, assemble (.encrypt data) = assemble (.combineEnc data)) ∧
  (∀ data, assemble (.decrypt data) = assemble (.combineDec data)) ∧
  (∀ count, assemble (.keystream count) = assemble (.combineGen count)) ∧
  (assemble .rewind = assemble (.seek 0)) ∧
  (∀ data, ∃ cmds, assemble (.encryptLong data) = some cmds ∧
    (cmds.map Prod.snd).flatten = data ∧ (data = [] → cmds = []) ∧
    (∀ c ∈ cmds, c.2 ≠ [] ∧ decode c.1 = some (.combineEnc c.2.length)) ∧
    (∀ c ∈ cmds.dropLast, c.2.length = 65535))
end

