-- ==== Sys2Proof/Laws/State.lean ====
section
/-! SUPPORT. What each shared update of State leaves in each field. -/

namespace Sys2Proof.Machine

@[simp] theorem respond_variant (s : State) (r : Response) (e : Engine) : (s.respond r e).variant = s.variant := rfl
@[simp] theorem respond_engine (s : State) (r : Response) (e : Engine) : (s.respond r e).engine = e := rfl
@[simp] theorem respond_payload (s : State) (r : Response) (e : Engine) : (s.respond r e).payload = [] := rfl
@[simp] theorem respond_input (s : State) (r : Response) (e : Engine) : (s.respond r e).input = s.input := rfl
@[simp] theorem respond_response (s : State) (r : Response) (e : Engine) : (s.respond r e).response = some r := rfl
@[simp] theorem respond_sent (s : State) (r : Response) (e : Engine) : (s.respond r e).sent = s.output := rfl

/-- A response is appended to the output stream (30_encoding.md R71). -/
@[simp] theorem respond_output (s : State) (r : Response) (e : Engine) :
    (s.respond r e).output = s.output ++ r.bytes := rfl

/-- Neither the payload nor the unread input is part of what a response carries on from. -/
@[simp] theorem respond_setPayload (s : State) (p : List Byte) (r : Response) (e : Engine) :
    State.respond { s with payload := p } r e = s.respond r e := rfl

@[simp] theorem takeReset_variant (s : State) (k : Nat) (ev : List HostEvent) :
    (s.takeReset k ev).variant = s.variant := rfl
@[simp] theorem takeReset_engine (s : State) (k : Nat) (ev : List HostEvent) :
    (s.takeReset k ev).engine = Engine.reset := rfl
@[simp] theorem takeReset_payload (s : State) (k : Nat) (ev : List HostEvent) : (s.takeReset k ev).payload = [] := rfl
@[simp] theorem takeReset_input (s : State) (k : Nat) (ev : List HostEvent) : (s.takeReset k ev).input = ev := rfl
@[simp] theorem takeReset_response (s : State) (k : Nat) (ev : List HostEvent) :
    (s.takeReset k ev).response = none := rfl
@[simp] theorem takeReset_sent (s : State) (k : Nat) (ev : List HostEvent) :
    (s.takeReset k ev).sent = s.sent ++ s.responseBytes.take k := rfl

@[simp] theorem setCtr_w (v : Variant) (n : Nat) (e : Engine) : (e.setCtr v n).w = counterWords v e.w n := rfl
@[simp] theorem setCtr_rounds (v : Variant) (n : Nat) (e : Engine) : (e.setCtr v n).rounds = e.rounds := rfl
@[simp] theorem setCtr_keyed (v : Variant) (n : Nat) (e : Engine) : (e.setCtr v n).keyed = e.keyed := rfl
@[simp] theorem setCtr_exh (v : Variant) (n : Nat) (e : Engine) : (e.setCtr v n).exh = false := rfl
@[simp] theorem setCtr_kb (v : Variant) (n : Nat) (e : Engine) : (e.setCtr v n).kb = e.kb := rfl
@[simp] theorem setCtr_pos (v : Variant) (n : Nat) (e : Engine) : (e.setCtr v n).pos = e.pos := rfl

@[simp] theorem consumeAt_w (e : Engine) (p : Fin 64) : (e.consumeAt p).2.w = e.w := rfl
@[simp] theorem consumeAt_rounds (e : Engine) (p : Fin 64) : (e.consumeAt p).2.rounds = e.rounds := rfl
@[simp] theorem consumeAt_keyed (e : Engine) (p : Fin 64) : (e.consumeAt p).2.keyed = e.keyed := rfl
@[simp] theorem consumeAt_exh (e : Engine) (p : Fin 64) : (e.consumeAt p).2.exh = e.exh := rfl
@[simp] theorem consumeAt_kb (e : Engine) (p : Fin 64) : (e.consumeAt p).2.kb = e.kb := rfl
@[simp] theorem consumeAt_pos (e : Engine) (p : Fin 64) : (e.consumeAt p).2.pos = p.succ := rfl
@[simp] theorem consumeAt_byte (e : Engine) (p : Fin 64) : (e.consumeAt p).1 = e.kb[p] := rfl

end Sys2Proof.Machine
end

