-- ==== Sys2Proof/Laws/Counter.lean ====
section
/-! SUPPORT. The counter operations touch the counter words only (10_state.md R24, R25; 43_keystream_combiner.md R165, R166). -/

namespace Sys2Proof.Machine

/-- Word `j` is no counter word of the variant. -/
abbrev NotCounterWord (v : Variant) (j : Fin 16) : Prop := j.val < 12 ∨ 14 ≤ j.val ∨ (j.val = 13 ∧ v = .ietf)

theorem counterWords_frame (v : Variant) (w : Words) (n : Nat) (j : Fin 16) (h : NotCounterWord v j) :
    (counterWords v w n)[j] = w[j] := by
  cases v with
  | original =>
    have h12 : 12 ≠ j.val := by rcases h with h | h | ⟨-, h⟩ <;> first | omega | cases h
    have h13 : 13 ≠ j.val := by rcases h with h | h | ⟨-, h⟩ <;> first | omega | cases h
    simp [counterWords, h12, h13]
  | ietf =>
    have h12 : 12 ≠ j.val := by rcases h with h | h | ⟨h, -⟩ <;> omega
    simp [counterWords, h12]

theorem advance_frame (v : Variant) (e : Engine) (j : Fin 16) (h : NotCounterWord v j) :
    (e.advance v).w[j] = e.w[j] := by
  cases v with
  | original =>
    have h12 : 12 ≠ j.val := by rcases h with h | h | ⟨-, h⟩ <;> first | omega | cases h
    have h13 : 13 ≠ j.val := by rcases h with h | h | ⟨-, h⟩ <;> first | omega | cases h
    unfold Engine.advance; dsimp only; split <;> simp [h12, h13]
  | ietf =>
    have h12 : 12 ≠ j.val := by rcases h with h | h | ⟨h, -⟩ <;> omega
    unfold Engine.advance; dsimp only; split <;> simp [h12]

@[simp] theorem advance_rounds (v : Variant) (e : Engine) : (e.advance v).rounds = e.rounds := by
  cases v <;> (unfold Engine.advance; dsimp only; split <;> rfl)
@[simp] theorem advance_keyed (v : Variant) (e : Engine) : (e.advance v).keyed = e.keyed := by
  cases v <;> (unfold Engine.advance; dsimp only; split <;> rfl)
@[simp] theorem advance_kb (v : Variant) (e : Engine) : (e.advance v).kb = e.kb := by
  cases v <;> (unfold Engine.advance; dsimp only; split <;> rfl)
@[simp] theorem advance_pos (v : Variant) (e : Engine) : (e.advance v).pos = e.pos := by
  cases v <;> (unfold Engine.advance; dsimp only; split <;> rfl)

theorem advance_exh_original (e : Engine) : (e.advance .original).exh = e.exh := by
  unfold Engine.advance; dsimp only; split <;> rfl

/-- The IETF counter after an advance: one more, or exhausted with word 12 at 0 (43_keystream_combiner.md R166). -/
theorem advance_ietf (e : Engine) :
    (e.w[12] = 0xFFFFFFFF ∧ (e.advance .ietf).w[12] = 0 ∧ (e.advance .ietf).exh = true) ∨
    (e.w[12] ≠ 0xFFFFFFFF ∧ (e.advance .ietf).w[12] = e.w[12] + 1 ∧ (e.advance .ietf).exh = e.exh) := by
  unfold Engine.advance; dsimp only
  split
  · next h => exact .inl ⟨h, by simp, rfl⟩
  · next h => exact .inr ⟨h, by simp, rfl⟩

@[simp] theorem ctr_setPos (v : Variant) (e : Engine) (p : Fin 65) : Engine.ctr v { e with pos := p } = e.ctr v := rfl

/-- Setting the counter twice is setting it once. -/
theorem counterWords_counterWords (v : Variant) (w : Words) (m n : Nat) :
    counterWords v (counterWords v w m) n = counterWords v w n := by
  ext j hj
  cases v <;> simp only [counterWords, Vector.getElem_set] <;> split_ifs <;> rfl

/-- Setting the counter to its own value changes no word (10_state.md R25). -/
theorem counterWords_ctr (v : Variant) (e : Engine) : counterWords v e.w (e.ctr v) = e.w := by
  have h12 := e.w[12].isLt
  have h13 := e.w[13].isLt
  cases v with
  | original =>
    have lo : BitVec.ofNat 32 (e.ctr .original) = e.w[12] := by
      apply BitVec.eq_of_toNat_eq; simp only [Engine.ctr, BitVec.toNat_ofNat]; omega
    have hi : BitVec.ofNat 32 (e.ctr .original / 2 ^ 32) = e.w[13] := by
      apply BitVec.eq_of_toNat_eq; simp only [Engine.ctr, BitVec.toNat_ofNat]; omega
    ext j hj
    simp only [counterWords, lo, hi, Vector.getElem_set]
    split_ifs with h h' <;> first | (subst h; rfl) | (subst h'; rfl) | rfl
  | ietf =>
    have lo : BitVec.ofNat 32 (e.ctr .ietf) = e.w[12] := by
      apply BitVec.eq_of_toNat_eq; simp only [Engine.ctr, BitVec.toNat_ofNat]; split <;> omega
    ext j hj
    simp only [counterWords, lo, Vector.getElem_set]
    split_ifs with h <;> first | (subst h; rfl) | rfl

/-- The counter reads what it was set to, when that fits (10_state.md R25). -/
theorem ctr_setCtr {v : Variant} {n : Nat} (e : Engine) (h : n < 2 ^ ctrBits v) : (e.setCtr v n).ctr v = n := by
  cases v with
  | original =>
    simp only [ctrBits] at h
    simp only [Engine.ctr, Engine.setCtr, counterWords]
    simp
    omega
  | ietf =>
    simp only [ctrBits] at h
    simp [Engine.ctr, Engine.setCtr, counterWords]
    omega

/-- The counter words depend on the index modulo `2^CTR_BITS` only. -/
theorem counterWords_mod (v : Variant) (w : Words) (n : Nat) :
    counterWords v w (n % 2 ^ ctrBits v) = counterWords v w n := by
  cases v with
  | original =>
    have lo : BitVec.ofNat 32 (n % 2 ^ 64) = BitVec.ofNat 32 n := by
      apply BitVec.eq_of_toNat_eq; simp only [BitVec.toNat_ofNat]; omega
    have hi : BitVec.ofNat 32 (n % 2 ^ 64 / 2 ^ 32) = BitVec.ofNat 32 (n / 2 ^ 32) := by
      apply BitVec.eq_of_toNat_eq; simp only [BitVec.toNat_ofNat]; omega
    simp only [counterWords, ctrBits, lo, hi]
  | ietf =>
    have lo : BitVec.ofNat 32 (n % 2 ^ 32) = BitVec.ofNat 32 n := by
      apply BitVec.eq_of_toNat_eq; simp only [BitVec.toNat_ofNat]; omega
    simp only [counterWords, ctrBits, lo]

end Sys2Proof.Machine
end

