-- ==== Sys2Proof/Laws/Combiner.lean ====
section
/-! SUPPORT. What one keystream byte and the loop of a COMBINE do to the block (43_keystream_combiner.md R163, R164). -/

namespace Sys2Proof.Machine

@[simp] theorem refill_rounds (v : Variant) (e : Engine) : (e.refill v).rounds = e.rounds := by simp [Engine.refill]
@[simp] theorem refill_keyed (v : Variant) (e : Engine) : (e.refill v).keyed = e.keyed := by simp [Engine.refill]
@[simp] theorem refill_pos (v : Variant) (e : Engine) : (e.refill v).pos = 0 := by simp [Engine.refill]
@[simp] theorem refill_kb (v : Variant) (e : Engine) : (e.refill v).kb = block e.w e.rounds := by simp [Engine.refill]

theorem refill_frame (v : Variant) (e : Engine) (j : Fin 16) (h : NotCounterWord v j) : (e.refill v).w[j] = e.w[j] :=
  advance_frame v _ j h

theorem nextKeyByte_of_buffered (v : Variant) {e : Engine} (h : e.pos.val < 64) :
    e.nextKeyByte v = e.consumeAt ⟨e.pos.val, h⟩ := dif_pos h

theorem nextKeyByte_of_empty (v : Variant) {e : Engine} (h : ¬ e.pos.val < 64) :
    e.nextKeyByte v = (e.refill v).consumeAt 0 := dif_neg h

/-- All that producing one keystream byte can do: use a buffered byte, or refill and use the first (43_keystream_combiner.md
R163). -/
theorem nextKeyByte_cases (v : Variant) (e : Engine) :
    (∃ h : e.pos.val < 64, e.nextKeyByte v = e.consumeAt ⟨e.pos.val, h⟩) ∨
    (e.pos = 64 ∧ e.nextKeyByte v = (e.refill v).consumeAt 0) := by
  by_cases h : e.pos.val < 64
  · exact .inl ⟨h, nextKeyByte_of_buffered v h⟩
  · exact .inr ⟨Fin.ext (by have := e.pos.isLt; show e.pos.val = 64; omega), nextKeyByte_of_empty v h⟩

theorem nextKeyByte_frame (v : Variant) (e : Engine) (j : Fin 16) (h : NotCounterWord v j) :
    (e.nextKeyByte v).2.w[j] = e.w[j] := by
  rcases nextKeyByte_cases v e with ⟨_, hn⟩ | ⟨_, hn⟩
  · rw [hn, consumeAt_w]
  · rw [hn, consumeAt_w, refill_frame v e j h]

@[simp] theorem nextKeyByte_rounds (v : Variant) (e : Engine) : (e.nextKeyByte v).2.rounds = e.rounds := by
  rcases nextKeyByte_cases v e with ⟨_, hn⟩ | ⟨_, hn⟩ <;> simp [hn]

@[simp] theorem nextKeyByte_keyed (v : Variant) (e : Engine) : (e.nextKeyByte v).2.keyed = e.keyed := by
  rcases nextKeyByte_cases v e with ⟨_, hn⟩ | ⟨_, hn⟩ <;> simp [hn]

@[simp] theorem combineLoop_nil (v : Variant) (e : Engine) : Engine.combineLoop v [] e = ([], e) := rfl

theorem combineLoop_cons (v : Variant) (b : Option Byte) (bs : List (Option Byte)) (e : Engine) :
    Engine.combineLoop v (b :: bs) e =
      (combineByte (e.nextKeyByte v).1 b :: (Engine.combineLoop v bs (e.nextKeyByte v).2).1,
        (Engine.combineLoop v bs (e.nextKeyByte v).2).2) := rfl

/-- One output byte for each input (30_encoding.md R79). -/
@[simp] theorem combineLoop_length (v : Variant) (bs : List (Option Byte)) (e : Engine) :
    (Engine.combineLoop v bs e).1.length = bs.length := by
  induction bs generalizing e with
  | nil => rfl
  | cons b bs ih => simp [combineLoop_cons, ih]

/-- The loop over two lists is the loop over the first and then, from the state it leaves, over the second. -/
theorem combineLoop_append (v : Variant) (as bs : List (Option Byte)) (e : Engine) :
    Engine.combineLoop v (as ++ bs) e =
      ((Engine.combineLoop v as e).1 ++ (Engine.combineLoop v bs (Engine.combineLoop v as e).2).1,
        (Engine.combineLoop v bs (Engine.combineLoop v as e).2).2) := by
  induction as generalizing e with
  | nil => rfl
  | cons a as ih => simp [combineLoop_cons, ih]

/-- The state a loop leaves depends on how many bytes it makes, not on its inputs. -/
theorem combineLoop_state (v : Variant) (as bs : List (Option Byte)) (e : Engine) (h : as.length = bs.length) :
    (Engine.combineLoop v as e).2 = (Engine.combineLoop v bs e).2 := by
  induction as generalizing bs e with
  | nil => cases bs with
    | nil => rfl
    | cons b bs => simp at h
  | cons a as ih => cases bs with
    | nil => simp at h
    | cons b bs => simpa [combineLoop_cons] using ih bs _ (by simpa using h)

theorem combineLoop_frame (v : Variant) (bs : List (Option Byte)) (e : Engine) (j : Fin 16) (h : NotCounterWord v j) :
    (Engine.combineLoop v bs e).2.w[j] = e.w[j] := by
  induction bs generalizing e with
  | nil => rfl
  | cons b bs ih => rw [combineLoop_cons]; exact (ih _).trans (nextKeyByte_frame v e j h)

@[simp] theorem combineLoop_rounds (v : Variant) (bs : List (Option Byte)) (e : Engine) :
    (Engine.combineLoop v bs e).2.rounds = e.rounds := by
  induction bs generalizing e with
  | nil => rfl
  | cons b bs ih => simp [combineLoop_cons, ih]

@[simp] theorem combineLoop_keyed (v : Variant) (bs : List (Option Byte)) (e : Engine) :
    (Engine.combineLoop v bs e).2.keyed = e.keyed := by
  induction bs generalizing e with
  | nil => rfl
  | cons b bs ih => simp [combineLoop_cons, ih]

/-- ORIGINAL never changes `EXH` (10_state.md R28). -/
theorem combineLoop_exh_original (bs : List (Option Byte)) (e : Engine) :
    (Engine.combineLoop .original bs e).2.exh = e.exh := by
  induction bs generalizing e with
  | nil => rfl
  | cons b bs ih =>
    rw [combineLoop_cons]
    refine (ih _).trans ?_
    rcases nextKeyByte_cases .original e with ⟨_, hn⟩ | ⟨_, hn⟩
    · simp [hn]
    · rw [hn, consumeAt_exh]; exact advance_exh_original _

end Sys2Proof.Machine
end

