-- ==== Sys2Proof/Laws/Ops.lean ====
section
/-! SUPPORT. What ending a command can do, and the one shape every meaning has: a check of the payload length around the
command's own rule. -/

namespace Sys2Proof.Machine

@[simp] theorem finish_ok (s : State) (e : Engine) (out : List Byte) :
    s.finish (.ok (e, out)) = s.respond ⟨.ok, out⟩ e := rfl

@[simp] theorem finish_error (s : State) (status : Status) :
    s.finish (.error status) = s.respond ⟨status, []⟩ s.engine := rfl

@[simp] theorem raise_eq_respond (s : State) (status : Status) : s.raise status = s.respond ⟨status, []⟩ s.engine := rfl

theorem runCommand_of_length {s : State} {n : Nat} (body : List Byte → CommandResult) (h : s.payload.length = n) :
    s.runCommand n body = .next (s.finish (body s.payload)) := if_pos h

theorem runCommand_of_length_ne {s : State} {n : Nat} (body : List Byte → CommandResult) (h : s.payload.length ≠ n) :
    s.runCommand n body = .next (s.respond ⟨.illegalCommand, []⟩ s.engine) := if_neg h

/-- The command's own rule: what the instruction does to the block, given its payload. -/
def commandRule (v : Variant) (e : Engine) : Instr → List Byte → CommandResult
  | .setkey rnd len => e.setkey v rnd len
  | .resync len => e.resync v len
  | .combineEnc len => e.combine v .xor len
  | .combineDec len => e.combine v .xor len
  | .combineGen len => e.combine v .gen len
  | .seek => e.seek v

/-- Every meaning is the payload-length check around the command's own rule (30_encoding.md R82, 60_exceptions.md R225). -/
theorem exec_eq_runCommand (i : Instr) (s : State) :
    exec i s = s.runCommand (payloadLen i) (commandRule s.variant s.engine i) := by cases i <;> rfl

/-- All that executing an instruction can do: end with a response, the block's own state being the one the response stands
for. -/
theorem exec_cases (i : Instr) (s : State) :
    (s.payload.length ≠ payloadLen i ∧ exec i s = .next (s.respond ⟨.illegalCommand, []⟩ s.engine)) ∨
    (s.payload.length = payloadLen i ∧
      ((∃ status, commandRule s.variant s.engine i s.payload = .error status ∧
          exec i s = .next (s.respond ⟨status, []⟩ s.engine)) ∨
       (∃ e out, commandRule s.variant s.engine i s.payload = .ok (e, out) ∧
          exec i s = .next (s.respond ⟨.ok, out⟩ e)))) := by
  rw [exec_eq_runCommand]
  by_cases h : s.payload.length = payloadLen i
  · refine .inr ⟨h, ?_⟩
    rw [runCommand_of_length _ h]
    cases hr : commandRule s.variant s.engine i s.payload with
    | error status => exact .inl ⟨status, rfl, rfl⟩
    | ok r => exact .inr ⟨r.1, r.2, rfl, rfl⟩
  · exact .inl ⟨h, runCommand_of_length_ne _ h⟩

theorem requireKeyed_of_keyed {e : Engine} (body : CommandResult) (h : e.keyed = true) : e.requireKeyed body = body :=
  if_pos h

theorem requireKeyed_of_not_keyed {e : Engine} (body : CommandResult) (h : e.keyed = false) :
    e.requireKeyed body = .error .notKeyed := by simp [Engine.requireKeyed, h]

/-- A command that needs a key and succeeds ran its body on a keyed block (10_state.md R27). -/
theorem requireKeyed_ok {e : Engine} {body : CommandResult} {r : Engine × List Byte}
    (h : e.requireKeyed body = .ok r) : e.keyed = true ∧ body = .ok r := by
  unfold Engine.requireKeyed at h
  split at h
  · exact ⟨by assumption, h⟩
  · cases h

/-- All that a SETKEY that succeeds does (41_state_init.md R100). -/
theorem setkey_ok {v : Variant} {rnd len : Nat} {e e' : Engine} {p out : List Byte}
    (h : e.setkey v rnd len p = .ok (e', out)) :
    keyBytesOk v len = true ∧ roundsOk v rnd = true ∧ out = [] ∧
      e' = { w := initialWords len p, rounds := roundsStored v rnd, keyed := true, exh := false, kb := e.kb, pos := 64 } := by
  unfold Engine.setkey at h
  split at h
  · cases h
  · split at h
    · cases h
    · cases h; simp_all

/-- All that a RESYNC that succeeds does (41_state_init.md R110). -/
theorem resync_ok {v : Variant} {len : Nat} {e e' : Engine} {p out : List Byte}
    (h : e.resync v len p = .ok (e', out)) :
    e.keyed = true ∧ len = nonceBytes v ∧ initialBlock len p < 2 ^ ctrBits v ∧ out = [] ∧
      e' = { e.setCtr v (initialBlock len p) with
              w := nonceWords v (counterWords v e.w (initialBlock len p)) p, pos := 64 } := by
  obtain ⟨hk, h⟩ := requireKeyed_ok h
  split at h
  · cases h
  · split at h
    · cases h
    · cases h; simp_all [counterFits]

/-- All that a SEEK that succeeds does (44_seek.md R200). -/
theorem seek_ok {v : Variant} {e e' : Engine} {p out : List Byte} (h : e.seek v p = .ok (e', out)) :
    e.keyed = true ∧ blockIndex p < 2 ^ ctrBits v ∧ out = [] ∧ e' = { e.setCtr v (blockIndex p) with pos := 64 } := by
  obtain ⟨hk, h⟩ := requireKeyed_ok h
  split at h
  · cases h
  · cases h; simp_all [counterFits]

/-- All that a COMBINE that succeeds does (43_keystream_combiner.md R163). -/
theorem combine_ok {v : Variant} {mode : CombineMode} {len : Nat} {e e' : Engine} {p out : List Byte}
    (h : e.combine v mode len p = .ok (e', out)) :
    e.keyed = true ∧ e.overflows v len = false ∧ Engine.combineLoop v (combineInputs mode len p) e = (out, e') := by
  obtain ⟨hk, h⟩ := requireKeyed_ok h
  split at h
  · cases h
  · cases h; simp_all

/-- All that a transaction can do (00_scope.md R13). -/
theorem transact_cases (hdr : Word) (p : List Byte) (s : State) :
    (decode hdr = none ∧ transact hdr p s = .next (s.respond ⟨.illegalCommand, []⟩ s.engine)) ∨
    (∃ i, decode hdr = some i ∧ transact hdr p s = exec i { s with payload := p }) := by
  unfold transact
  cases decode hdr with
  | none => exact .inl ⟨rfl, rfl⟩
  | some i => exact .inr ⟨i, rfl, rfl⟩

end Sys2Proof.Machine
end

