-- ==== Sys2Proof/Laws/PerInstr.lean ====
section
/-! SUPPORT. One family of facts about each instruction as syntax: the header of a well-formed instruction lies in its row of the
opcode table (30_encoding.md R74). -/

namespace Sys2Proof.Laws.TableRow

/-- The row's mask (30_encoding.md R74). -/
def mask : Instr → Nat
  | .setkey _ _ => 0x000000FF
  | .resync _ => 0x0000FFFF
  | .combineEnc _ => 0x0000FFFF
  | .combineDec _ => 0x0000FFFF
  | .combineGen _ => 0x0000FFFF
  | .seek => 0xFFFFFFFF

/-- The row's match (30_encoding.md R74). -/
def pattern : Instr → Nat
  | .setkey _ _ => 0x00000001
  | .resync _ => 0x00000002
  | .combineEnc _ => 0x00000003
  | .combineDec _ => 0x00000013
  | .combineGen _ => 0x00000023
  | .seek => 0x00000004

/-- `hdr & mask = match` for the header of a well-formed instruction. -/
def Statement (i : Instr) : Prop := i.wf = true → (encode i).toNat &&& mask i = pattern i

theorem and_low_byte (n : Nat) : n &&& 0x000000FF = n % 2 ^ 8 := Nat.and_two_pow_sub_one_eq_mod n 8
theorem and_low_half (n : Nat) : n &&& 0x0000FFFF = n % 2 ^ 16 := Nat.and_two_pow_sub_one_eq_mod n 16

theorem setkey (rnd len : Nat) : Statement (.setkey rnd len) := by
  intro _
  simp only [mask, pattern, and_low_byte, encode, header, BitVec.toNat_ofNat]
  omega

theorem resync (len : Nat) : Statement (.resync len) := by
  intro _
  simp only [mask, pattern, and_low_half, encode, header, BitVec.toNat_ofNat]
  omega

theorem combineEnc (len : Nat) : Statement (.combineEnc len) := by
  intro _
  simp only [mask, pattern, and_low_half, encode, header, BitVec.toNat_ofNat]
  omega

theorem combineDec (len : Nat) : Statement (.combineDec len) := by
  intro _
  simp only [mask, pattern, and_low_half, encode, header, BitVec.toNat_ofNat]
  omega

theorem combineGen (len : Nat) : Statement (.combineGen len) := by
  intro _
  simp only [mask, pattern, and_low_half, encode, header, BitVec.toNat_ofNat]
  omega

theorem seek : Statement .seek := by intro _; decide

end Sys2Proof.Laws.TableRow
end

