-- ==== Sys2Proof/Laws/Stream.lean ====
section
/-! SUPPORT. What reading the input stream gives: all the bytes asked for, a reset that came first, or nothing yet. -/

namespace Sys2Proof.Machine

theorem takeBytes_of_bytes (bs : List Byte) (ev : List HostEvent) :
    takeBytes bs.length (bs.map .byte ++ ev) = .bytes bs ev := by
  induction bs with
  | nil => rfl
  | cons b bs ih => simp [takeBytes, ih]

theorem takeBytes_starved {n : Nat} {bs : List Byte} (h : bs.length < n) : takeBytes n (bs.map .byte) = .starved := by
  induction n generalizing bs with
  | zero => simp at h
  | succ n ih =>
    cases bs with
    | nil => rfl
    | cons b bs => simp [takeBytes, ih (bs := bs) (by simpa using h)]

theorem takeBytes_interrupted {n : Nat} {bs : List Byte} (k : Nat) (ev : List HostEvent) (h : bs.length < n) :
    takeBytes n (bs.map .byte ++ .reset k :: ev) = .interrupted ev := by
  induction n generalizing bs with
  | zero => simp at h
  | succ n ih =>
    cases bs with
    | nil => rfl
    | cons b bs => simp [takeBytes, ih (bs := bs) (by simpa using h)]

/-- Bytes that were read were bytes at the front of the stream, as many as were asked for. -/
theorem takeBytes_eq_bytes {n : Nat} {ev rest : List HostEvent} {bs : List Byte}
    (h : takeBytes n ev = .bytes bs rest) : bs.length = n ∧ ev = bs.map .byte ++ rest := by
  induction n generalizing ev bs with
  | zero => simp only [takeBytes, Taken.bytes.injEq] at h; simp [← h.1, h.2]
  | succ n ih =>
    match ev with
    | [] => simp [takeBytes] at h
    | .reset _ :: _ => simp [takeBytes] at h
    | .byte b :: ev =>
      simp only [takeBytes] at h
      split at h
      · next hb => cases h; obtain ⟨h1, h2⟩ := ih hb; simp [h1, h2]
      · cases h
      · cases h

/-- Where the stream begins with a byte, the block reads a header. -/
theorem fetch_of_byte (b : Byte) (ev : List HostEvent) :
    fetch (.byte b :: ev) =
      match takeBytes 4 (.byte b :: ev) with
      | .bytes hs rest => fetchPayload (le32 hs 0) rest
      | .interrupted rest => .resetMidCommand rest
      | .starved => .noHeader := rfl

end Sys2Proof.Machine
end

