-- ==== Sys2Proof/Tests/Slice0.lean ====
section
/-! SUPPORT. Tests: expected values are those of spec/95_test_vectors.md, named at each test; the words of the decode tests are
written out from 30_encoding.md R72 and R74. Then, for each obligation that has hypotheses, a witness that meets them. -/

namespace Sys2Proof.Tests

open Sys2Proof Sys2Proof.Machine

/-! ### Helpers -/

/-- The next state, where there is one. -/
def nextOf (o : Host.Outcome State Fault Refusal) : Option State :=
  match o with
  | .next s => some s
  | _ => none

/-- The response of the next state. -/
def answer (o : Host.Outcome State Fault Refusal) : Option Response := (nextOf o).bind State.response

/-- The block after the next state's command. -/
def engineAfter (o : Host.Outcome State Fault Refusal) : Engine :=
  match o with
  | .next s => s.engine
  | _ => Engine.reset

/-- `SIGMA` followed by twelve zero words: the state after `SETKEY 20, Z32` in IETF (95_test_vectors.md P1). -/
def zeroWords : Words := #v[0x61707865, 0x3320646e, 0x79622d32, 0x6b206574, 0, 0, 0, 0, 0, 0, 0, 0, 0, 0, 0, 0]

/-- The block keyed with the zero key, with an empty buffer. -/
def zeroKeyed : Engine := { Engine.reset with w := zeroWords, keyed := true }

/-- The zero-keyed block with counter words `lo`, `hi`, and `EXH`, `POS` as given. -/
def keyedAt (lo hi : Word) (exh : Bool) (pos : Fin 65) : Engine :=
  { zeroKeyed with w := (zeroWords.set 12 lo).set 13 hi, exh := exh, pos := pos }

/-- A machine with that block about to execute a command with payload `p`. -/
def loaded (v : Variant) (e : Engine) (p : List Byte) : State := { State.resetOf v with engine := e, payload := p }

/-- A machine with that block and the host's bytes on its input stream. -/
def fed (v : Variant) (e : Engine) (bs : List Byte) : State :=
  { State.resetOf v with engine := e, input := bs.map .byte }

/-- The bytes `00 01 .. (n-1)`: `K32`, `K16`. -/
def counting (n : Nat) : List Byte := (List.range n).map (BitVec.ofNat 8)

/-! ### Well-formedness: each check refuses an ill-formed term -/

theorem test_wf_refuses_rounds_256 : (Instr.setkey 256 32).wf = false := by decide
theorem test_wf_refuses_setkey_len_65536 : (Instr.setkey 20 65536).wf = false := by decide
theorem test_wf_refuses_resync_len_65536 : (Instr.resync 65536).wf = false := by decide
theorem test_wf_refuses_enc_len_65536 : (Instr.combineEnc 65536).wf = false := by decide
theorem test_wf_refuses_dec_len_65536 : (Instr.combineDec 65536).wf = false := by decide
theorem test_wf_refuses_gen_len_65536 : (Instr.combineGen 65536).wf = false := by decide
theorem test_wf_admits_field_limits :
    (Instr.setkey 255 65535).wf = true ∧ (Instr.resync 65535).wf = true ∧ Instr.seek.wf = true := by decide

/-! ### Decoding: words from 30_encoding.md R72, R74 and 95_test_vectors.md V-C1 -/

theorem test_decode_setkey : decode 0x00201401 = some (.setkey 20 32) := by decide
theorem test_decode_setkey_all_ones : decode 0xffffff01 = some (.setkey 255 65535) := by decide
theorem test_decode_resync : decode 0x000c0002 = some (.resync 12) := by decide
theorem test_decode_combineEnc : decode 0x00320003 = some (.combineEnc 50) := by decide
theorem test_decode_combineDec : decode 0x00720013 = some (.combineDec 114) := by decide
theorem test_decode_combineGen : decode 0xffff0023 = some (.combineGen 65535) := by decide
theorem test_decode_seek : decode 0x00000004 = some .seek := by decide

/-- Each class of R77 is refused by its name. -/
theorem test_decode_illegal :
    decodeHeader 0x00000000 = .error .reservedOpcode ∧ decodeHeader 0x00000005 = .error .reservedOpcode ∧
    decodeHeader 0x0000000f = .error .reservedOpcode ∧ decodeHeader 0x00000011 = .error .reservedSub ∧
    decodeHeader 0x00000033 = .error .reservedSub ∧ decodeHeader 0x00000102 = .error .reservedRnd ∧
    decodeHeader 0x00000113 = .error .reservedRnd ∧ decodeHeader 0x00010004 = .error .reservedLen := by
  refine ⟨?_, ?_, ?_, ?_, ?_, ?_, ?_, ?_⟩ <;> rfl

/-- 30_encoding.md R85: the headers of its examples. -/
theorem test_encode_examples :
    encode (.setkey 20 32) = 0x00201401 ∧ encode (.combineGen 64) = 0x00400023 ∧ encode .seek = 0x00000004 := by decide

/-- 30_encoding.md R85: `SETKEY 20, ..` begins `01 14 20 00`. -/
theorem test_stream_bytes : (commandBytes (.setkey 20 32) (counting 32)).take 4 = [0x01, 0x14, 0x20, 0x00] := by decide

theorem test_decodeTableWord : decodeTableWord 32 0x00000013 = some (.combineDec 0) := by decide

/-! ### Diffusion: 95_test_vectors.md V-Q1, V-D1, V-D2, V-D3, V-B1, V-O1 -/

theorem test_rotl32 : rotl32 0x12345678 7 = 0x1a2b3c09 ∧ rotl32 0x12345678 16 = 0x56781234 := by decide

theorem test_quarterRound_wraps :
    quarterRound 0xffffffff 0xffffffff 0xffffffff 0xffffffff = (0xf0000ffd, 0x88790878, 0x0110fdef, 0x010ffdf0) := by
  decide

theorem test_doubleRound_first_words : (doubleRound zeroWords)[0] = 0xe45fd249 ∧ (doubleRound zeroWords)[15] = 0x87c62165 := by
  decide

/-- V-B1: the RFC 8439 block, its first and last four bytes. -/
theorem test_block_rfc8439 :
    let b := (block #v[0x61707865, 0x3320646e, 0x79622d32, 0x6b206574, 0x03020100, 0x07060504, 0x0b0a0908, 0x0f0e0d0c,
      0x13121110, 0x17161514, 0x1b1a1918, 0x1f1e1d1c, 0x00000001, 0x09000000, 0x4a000000, 0x00000000] 20).toList
    b.take 4 ++ b.drop 60 = [0x10, 0xf1, 0xe7, 0xe4, 0xa2, 0x50, 0x3c, 0x4e] := by decide +kernel

/-! ### SETKEY: 95_test_vectors.md V-S1, V-O2 -/

theorem test_setkey_ietf_words :
    (engineAfter (exec (.setkey 20 32) (loaded .ietf Engine.reset (counting 32)))).w.toList =
      [0x61707865, 0x3320646e, 0x79622d32, 0x6b206574, 0x03020100, 0x07060504, 0x0b0a0908, 0x0f0e0d0c,
       0x13121110, 0x17161514, 0x1b1a1918, 0x1f1e1d1c, 0, 0, 0, 0] := by decide +kernel

theorem test_setkey_original_16_byte_key :
    let e := engineAfter (exec (.setkey 8 16) (loaded .original Engine.reset (counting 16)))
    e.w.toList.drop 1 = [0x3120646e, 0x79622d36, 0x6b206574, 0x03020100, 0x07060504, 0x0b0a0908, 0x0f0e0d0c,
       0x03020100, 0x07060504, 0x0b0a0908, 0x0f0e0d0c, 0, 0, 0, 0] ∧ e.rounds = 8 := by decide +kernel

/-! ### RESYNC: 95_test_vectors.md V-S2 -/

/-- The V-B1 input: `RESYNC 000000090000004a00000000, 1`. -/
theorem test_resync_ietf :
    (engineAfter (exec (.resync 12)
      (loaded .ietf zeroKeyed [0, 0, 0, 9, 0, 0, 0, 0x4a, 0, 0, 0, 0, 1, 0, 0, 0, 0, 0, 0, 0]))).w.toList.drop 12 =
      [0x00000001, 0x09000000, 0x4a000000, 0x00000000] := by decide

/-- `RESYNC Z12, 0x100000000` is out of range in IETF. -/
theorem test_resync_out_of_range :
    answer (exec (.resync 12) (loaded .ietf zeroKeyed [0, 0, 0, 0, 0, 0, 0, 0, 0, 0, 0, 0, 0, 0, 0, 0, 1, 0, 0, 0])) =
      some ⟨.invalidSeek, []⟩ := by decide

/-! ### COMBINE: 95_test_vectors.md V-K3, V-K5, V-K6, V-K7, P3 -/

/-- V-K3: `COMBINE.ENC 616263` under the zero key gives `17da83`. -/
theorem test_combineEnc_abc :
    answer (exec (.combineEnc 3) (loaded .ietf zeroKeyed [0x61, 0x62, 0x63])) = some ⟨.ok, [0x17, 0xda, 0x83]⟩ := by
  decide +kernel

/-- V-K3: `COMBINE.DEC 17da83` gives `616263`. -/
theorem test_combineDec_abc :
    answer (exec (.combineDec 3) (loaded .ietf zeroKeyed [0x17, 0xda, 0x83])) = some ⟨.ok, [0x61, 0x62, 0x63]⟩ := by
  decide +kernel

/-- P3 step 5: block `0xffffffff` begins `ace4cd09`, and the counter is then exhausted. -/
theorem test_combineGen_last_block :
    let o := exec (.combineGen 4) (loaded .ietf (keyedAt 0xffffffff 0 false 64) [])
    answer o = some ⟨.ok, [0xac, 0xe4, 0xcd, 0x09]⟩ ∧ (engineAfter o).exh = true ∧ (engineAfter o).w[12] = 0 ∧
      (engineAfter o).pos = 4 := by decide +kernel

/-- V-K5: at `CTR = 0xfffffffe` 129 bytes need 3 blocks and 2 are left. -/
theorem test_combineGen_overflow :
    answer (exec (.combineGen 129) (loaded .ietf (keyedAt 0xfffffffe 0 false 64) [])) = some ⟨.counterOverflow, []⟩ := by
  decide

/-- V-K7: the ORIGINAL counter carries from word 12 to word 13, and wraps. -/
theorem test_advance_original :
    ((keyedAt 0xffffffff 0 false 64).advance .original).w.toList.drop 12 = [0, 1, 0, 0] ∧
    ((keyedAt 0xffffffff 0xffffffff false 64).advance .original).w.toList.drop 12 = [0, 0, 0, 0] := by decide

/-! ### SEEK: 95_test_vectors.md V-K8 -/

theorem test_seek_ietf_maximum :
    let o := exec .seek (loaded .ietf (keyedAt 7 9 true 16) [0xff, 0xff, 0xff, 0xff, 0, 0, 0, 0])
    answer o = some ⟨.ok, []⟩ ∧ (engineAfter o).w.toList.drop 12 = [0xffffffff, 9, 0, 0] ∧
      (engineAfter o).exh = false ∧ (engineAfter o).pos = 64 := by decide

theorem test_seek_original_high_word :
    (engineAfter (exec .seek (loaded .original zeroKeyed [0, 0, 0, 0, 1, 0, 0, 0]))).w.toList.drop 12 = [0, 1, 0, 0] := by
  decide

/-! ### Steps, errors and the streams: 95_test_vectors.md P3, P6, V-X1 -/

/-- P3 step 1: `KEYSTREAM 1` from reset is `NotKeyed`, one byte `06` on the output stream. -/
theorem test_step_not_keyed :
    (nextOf (step (State.reset.withFetchWord 32 0x00010023))).map State.output = some [0x06] := by decide

/-- P6: an illegal header consumes its 4 bytes, and the byte after it stays. -/
theorem test_step_illegal_header :
    (nextOf (step (fed .original Engine.reset [0x33, 0, 0, 0, 0x04]))).map (fun t => (t.output, t.input)) =
      some ([0x07], [.byte 0x04]) := by decide

/-- V-X1: a SEEK header with a 7-byte payload is `IllegalCommand` before `NotKeyed`. -/
theorem test_transact_short_payload :
    answer (transact 0x00000004 [0, 0, 0, 0, 0, 0, 0] State.reset) = some ⟨.illegalCommand, []⟩ := by decide

/-- V-X3: reset in the middle of a SEEK leaves the block unkeyed and the next byte a header's first. -/
theorem test_step_reset_mid_command :
    (nextOf (step { fed .ietf zeroKeyed [] with
        input := [.byte 4, .byte 0, .byte 0, .byte 0, .byte 1, .reset 0, .byte 2] })).map
      (fun t => (t.engine.keyed, t.input)) = some (false, [.byte 2]) := by decide

/-! ### Assembler: 95_test_vectors.md V-C2 -/

theorem test_assemble_resync :
    assembleText "RESYNC 0001020304050607, 0xffffffff".toList =
      some [(0x00080002, [0, 1, 2, 3, 4, 5, 6, 7, 0xff, 0xff, 0xff, 0xff, 0, 0, 0, 0])] := by decide

theorem test_assemble_pseudo :
    assembleText "ENCRYPT 616263".toList = some [(0x00030003, [0x61, 0x62, 0x63])] ∧
    assembleText "DECRYPT 616263".toList = some [(0x00030013, [0x61, 0x62, 0x63])] ∧
    assembleText "KEYSTREAM 64".toList = some [(0x00400023, [])] ∧
    assembleText "REWIND".toList = some [(0x00000004, [0, 0, 0, 0, 0, 0, 0, 0])] := by decide

theorem test_assemble_refuses : assembleText "SETKEY 256, 00".toList = none ∧ assembleText "COMBINE.GEN 65536".toList = none := by
  decide

/-! ### Witnesses: for each obligation with hypotheses, values that meet them -/

/-- Headers of every class of R77. -/
theorem witness_IllegalHeadersAreTheListedClasses :
    decode 0x00000000 = none ∧ decode 0x00000005 = none ∧ decode 0x0000000f = none ∧ decode 0x00000033 = none ∧
    decode 0x000000f3 = none ∧ decode 0x00000011 = none ∧ decode 0x00000012 = none ∧ decode 0x00000014 = none ∧
    decode 0x00000102 = none ∧ decode 0x00000113 = none ∧ decode 0x00000104 = none ∧ decode 0x00010004 = none := by decide

theorem witness_DecodeOfEncode : (Instr.setkey 255 65535).wf = true ∧ (Instr.setkey 0 0).wf = true := by decide

theorem witness_EncodeOfDecode : decode 0xffffff01 = some (.setkey 255 65535) ∧ decode 0x00000004 = some .seek := by decide

theorem witness_StreamDecodeOfCommandBytes :
    (Instr.resync 1).wf = true ∧ ([5, 1, 0, 0, 0, 0, 0, 0, 0] : List Byte).length = payloadLen (.resync 1) := by decide

theorem witness_StepRunsTheDecodedCommand :
    decode 0x00010003 = some (.combineEnc 1) ∧ ([0x61] : List Byte).length = payloadLen (.combineEnc 1) ∧
    (fed .ietf zeroKeyed [3, 0, 1, 0, 0x61, 9]).input =
      (bytesLe32 0x00010003 ++ [0x61]).map .byte ++ [.byte 9] := by decide

theorem witness_FramingOfRejectedCommands :
    (decode 0x00000033 = none ∧ (fed .ietf zeroKeyed [0x33, 0, 0, 0, 4]).input = (bytesLe32 0x00000033).map .byte ++ [.byte 4]) ∧
    (decode 0x00010003 = some (.combineEnc 1) ∧ ([0x61] : List Byte).length = payloadLen (.combineEnc 1) ∧
      (fed .ietf Engine.reset [3, 0, 1, 0, 0x61]).input = (bytesLe32 0x00010003 ++ [0x61]).map .byte ++ []) := by decide

theorem witness_WrongPayloadLengthIsIllegal :
    (decode 0x00000004 = some .seek ∧ ([0, 0, 0, 0, 0, 0, 0] : List Byte).length ≠ payloadLen .seek) ∧
    (fetch (([3, 0, 1, 0, 0x61, 9] : List Byte).map .byte) = .command 0x00010003 [0x61] [.byte 9] ∧
      decode 0x00010003 = some (.combineEnc 1)) := by decide

/-- Nothing, three header bytes, and a SEEK that lacks its last payload byte. -/
theorem witness_MissingHostBytesStopTheStep :
    IncompleteCommand [] ∧ IncompleteCommand [4, 0, 0] ∧ IncompleteCommand [4, 0, 0, 0, 0, 0, 0, 0, 0, 0, 0] :=
  ⟨.inl (by decide), .inl (by decide), .inr ⟨.seek, by decide, by decide⟩⟩

theorem witness_ResetAbandonsTheCommandInProgress :
    ({ fed .ietf zeroKeyed [] with input := [.byte 4, .byte 0, .byte 0, .byte 0, .reset 0, .byte 2] } : State).input =
      ([4, 0, 0, 0] : List Byte).map .byte ++ .reset 0 :: [.byte 2] ∧
    IncompleteCommand [4, 0, 0, 0] ∧ IncompleteCommand [] :=
  ⟨by decide, .inr ⟨.seek, by decide, by decide⟩, .inl (by decide)⟩

/-- Two unkeyed blocks with different contents. -/
theorem witness_ResetValuesAreUnobservable :
    (State.resetOf .ietf).variant = (loaded .ietf { Engine.reset with w := zeroWords, rounds := 8 } []).variant ∧
    (State.resetOf .ietf).engine.keyed = false ∧
    (loaded .ietf { Engine.reset with w := zeroWords, rounds := 8 } []).engine.keyed = false := by decide

/-- A keyed block with an empty buffer meets the invariant. -/
theorem zeroKeyed_inv : zeroKeyed.Inv .ietf := ⟨by decide, by decide, by decide, by decide⟩

/-- So does one that has just made block 0 and holds all of its bytes. -/
theorem zeroKeyed_refilled_inv : (zeroKeyed.refill .ietf).Inv .ietf where
  rounds := by decide
  exh := by decide
  buffer := fun _ => ⟨fun _ => by decide, by
    rw [refill_kb]
    exact congrArg (block · 20) (by decide : zeroKeyed.w =
      counterWords .ietf (zeroKeyed.refill .ietf).w ((zeroKeyed.refill .ietf).passedBlock .ietf))⟩
  setup := by decide

theorem witness_StepKeepsTheInvariant :
    ∃ t, (fed .ietf (zeroKeyed.refill .ietf) [0x23, 0, 2, 0]).Inv ∧
      step (fed .ietf (zeroKeyed.refill .ietf) [0x23, 0, 2, 0]) = .next t :=
  ⟨_, ⟨zeroKeyed_refilled_inv, rfl⟩, rfl⟩

/-- One transaction for each status: what the first four obligations on responses speak of. -/
theorem witness_StatusesAreRaisedByTheirCommands :
    answer (transact 0x00101401 (counting 16) (State.resetOf .ietf)) = some ⟨.invalidKeyLength, []⟩ ∧
    answer (transact 0x00080002 (counting 16) (loaded .ietf zeroKeyed [])) = some ⟨.invalidIVLength, []⟩ ∧
    answer (transact 0x00200901 (counting 32) (State.resetOf .original)) = some ⟨.invalidRounds, []⟩ ∧
    answer (transact 0x00000004 [0, 0, 0, 0, 1, 0, 0, 0] (loaded .ietf zeroKeyed [])) = some ⟨.invalidSeek, []⟩ ∧
    answer (transact 0x00010023 [] (loaded .ietf (keyedAt 0 0 true 64) [])) = some ⟨.counterOverflow, []⟩ ∧
    answer (transact 0x00000023 [] (State.resetOf .ietf)) = some ⟨.notKeyed, []⟩ ∧
    answer (transact 0x00000005 [] (State.resetOf .ietf)) = some ⟨.illegalCommand, []⟩ := by decide

/-- A COMBINE that succeeds, and a command that is none. -/
theorem witness_OutputOnlyFromSuccessfulCombine :
    answer (transact 0x00020023 [] (loaded .ietf (keyedAt 1 0 false 62) [])) = some ⟨.ok, [0, 0]⟩ ∧
    answer (transact 0x00000004 [0, 0, 0, 0, 0, 0, 0, 0] (loaded .ietf zeroKeyed [])) = some ⟨.ok, []⟩ := by decide

theorem witness_FailedCommandsChangeNothing :
    ∃ t r, transact 0x00000005 [] State.reset = .next t ∧ t.response = some r ∧ r.status ≠ .ok :=
  ⟨_, _, rfl, rfl, by decide⟩

theorem witness_ErrorPriority :
    (∀ i, decode 0x00000005 = some i → ([] : List Byte).length ≠ payloadLen i) ∧
    ((loaded .ietf Engine.reset []).payload.length = payloadLen (.combineGen 0) ∧
      (loaded .ietf Engine.reset []).engine.keyed = false) ∧
    ((counting 24).length = 24 ∧ keyBytesOk .original 24 = false) ∧
    ((counting 16).length = 16 ∧ keyBytesOk .original 16 = true ∧ roundsOk .original 9 = false) ∧
    ((counting 16).length = 8 + 8 ∧ zeroKeyed.keyed = true ∧ 8 ≠ nonceBytes .ietf) ∧
    (12 = nonceBytes .ietf ∧
      2 ^ ctrBits .ietf ≤ (le64 (([0, 0, 0, 0, 0, 0, 0, 0, 0, 0, 0, 0, 0, 0, 0, 0, 1, 0, 0, 0] : List Byte).drop 12) 0).toNat) ∧
    2 ^ ctrBits .ietf ≤ (le64 ([0, 0, 0, 0, 1, 0, 0, 0] : List Byte) 0).toNat := by
  refine ⟨fun i h => ?_, by decide, by decide, by decide, by decide, by decide, by decide⟩
  exact absurd ((by decide : decode 0x00000005 = none).symm.trans h) (by simp)

/-- The clause on COMBINE: one byte wanted and no block left. -/
theorem witness_ErrorPriority_overflow :
    (keyedAt 0 0 true 64).keyed = true ∧ ¬ (keyedAt 0 0 true 64).HasBlocksFor .ietf 1 :=
  ⟨rfl, fun h => absurd (h rfl) (by decide)⟩

theorem witness_KeyedOnlyBySetkey :
    ∃ t r, exec (.setkey 20 32) (loaded .ietf Engine.reset (counting 32)) = .next t ∧ t.response = some r ∧ r.status = .ok ∧
      (loaded .ietf Engine.reset []).payload.length = payloadLen (.combineGen 0) ∧
      (loaded .ietf Engine.reset []).engine.keyed = false :=
  ⟨_, _, rfl, rfl, by decide, by decide, by decide⟩

/-- One command of each row of R33's table that succeeds, and one that fails. -/
theorem witness_CommandsWriteOnlyTheirElements :
    answer (exec (.setkey 20 32) (loaded .ietf zeroKeyed (counting 32))) = some ⟨.ok, []⟩ ∧
    answer (exec (.resync 8) (loaded .original zeroKeyed (counting 16))) = some ⟨.ok, []⟩ ∧
    answer (exec (.combineGen 1) (loaded .ietf (keyedAt 1 0 false 63) [])) = some ⟨.ok, [0]⟩ ∧
    answer (exec .seek (loaded .original zeroKeyed (counting 8))) = some ⟨.ok, []⟩ ∧
    answer (exec .seek (loaded .original Engine.reset (counting 8))) = some ⟨.notKeyed, []⟩ := by decide

theorem witness_SetkeyBuildsTheState :
    (loaded .original Engine.reset (counting 16)).payload.length = 16 ∧
    (16 = 32 ∨ (16 = 16 ∧ (loaded .original Engine.reset (counting 16)).variant = .original)) ∧
    ((loaded .original Engine.reset (counting 16)).variant = .original →
      18 = 8 ∨ 18 = 10 ∨ 18 = 12 ∨ 18 = 14 ∨ 18 = 16 ∨ 18 = 18 ∨ 18 = 20) := by decide

/-- A 24-byte key with bad rounds; a good key length with odd, too few and too many rounds. -/
theorem witness_SetkeyChecksKeyLengthFirst :
    ((counting 24).length = 24 ∧ ¬ (24 = 32 ∨ (24 = 16 ∧ Variant.original = .original))) ∧
    ((counting 16).length = 16 ∧ ¬ (9 % 2 = 0 ∧ 8 ≤ 9 ∧ 9 ≤ 20) ∧ ¬ (6 % 2 = 0 ∧ 8 ≤ 6 ∧ 6 ≤ 20) ∧
      ¬ (22 % 2 = 0 ∧ 8 ≤ 22 ∧ 22 ≤ 20)) := by decide

theorem witness_IetfSetkeyIgnoresRounds :
    ∃ t r, (loaded .ietf Engine.reset (counting 32)).variant = .ietf ∧
      exec (.setkey 255 32) (loaded .ietf Engine.reset (counting 32)) = .next t ∧ t.response = some r ∧ r.status = .ok :=
  ⟨_, _, rfl, rfl, rfl, by decide⟩

theorem witness_SetkeyBuildsAfresh :
    ∃ s', (loaded .ietf Engine.reset (counting 32)).payload = (loaded .ietf (keyedAt 5 6 true 3) (counting 32)).payload ∧
      exec (.setkey 20 32) (loaded .ietf Engine.reset (counting 32)) = .next s' ∧ s'.response = some ⟨.ok, []⟩ :=
  ⟨_, rfl, rfl, by decide⟩

/-- The largest IETF initial block, and a 64-bit one in ORIGINAL. -/
theorem witness_ResyncSetsNonceAndCounter :
    (zeroKeyed.keyed = true ∧
      ([0, 0, 0, 9, 0, 0, 0, 0x4a, 0, 0, 0, 0, 0xff, 0xff, 0xff, 0xff, 0, 0, 0, 0] : List Byte).length = 12 + 8 ∧
      (le64 (([0, 0, 0, 9, 0, 0, 0, 0x4a, 0, 0, 0, 0, 0xff, 0xff, 0xff, 0xff, 0, 0, 0, 0] : List Byte).drop 12) 0).toNat < 2 ^ 32) ∧
    (List.replicate 16 (0xff : Byte)).length = 8 + 8 := by decide

theorem witness_ResyncInitialBlockMustFit :
    zeroKeyed.keyed = true ∧
    (List.replicate 20 (0xff : Byte)).length = 12 + 8 ∧ 12 = nonceBytes .ietf ∧
      2 ^ ctrBits .ietf ≤ (le64 ((List.replicate 20 (0xff : Byte)).drop 12) 0).toNat ∧
    (List.replicate 20 (0xff : Byte)).length = 12 + 8 ∧ 12 ≠ nonceBytes .original := by decide

theorem witness_ResyncForgetsThePast :
    ∃ s', (∀ j : Fin 12, zeroKeyed.w[j.val] = (keyedAt 5 6 true 3).w[j.val]) ∧
      zeroKeyed.rounds = (keyedAt 5 6 true 3).rounds ∧ zeroKeyed.keyed = (keyedAt 5 6 true 3).keyed ∧
      exec (.resync 12) (loaded .ietf zeroKeyed (counting 16 ++ [0, 0, 0, 0])) = .next s' ∧
      s'.response = some ⟨.ok, []⟩ :=
  ⟨_, by decide, rfl, rfl, rfl, by decide⟩

/-- The last IETF block used in full, by GEN and by ENC: one block needed and one left; the last buffered byte of an exhausted
counter, by DEC; and the ORIGINAL counter at its wrap. -/
theorem witness_CombineEmitsTheKeystream :
    ((keyedAt 0xffffffff 0 false 64).keyed = true ∧ ([] : List Byte).length = payloadLen (CombineOp.gen.instr 64) ∧
      (counting 64).length = payloadLen (CombineOp.enc.instr 64) ∧
      (keyedAt 0xffffffff 0 false 64).HasBlocksFor .ietf 64) ∧
    ((keyedAt 0 0 true 63).keyed = true ∧ (counting 1).length = payloadLen (CombineOp.dec.instr 1) ∧
      (keyedAt 0 0 true 63).HasBlocksFor .ietf 1) ∧
    ((keyedAt 0xffffffff 0xffffffff false 64).keyed = true ∧
      (counting 65).length = payloadLen (CombineOp.enc.instr 65) ∧
      (keyedAt 0xffffffff 0xffffffff false 64).HasBlocksFor .original 65) :=
  ⟨⟨rfl, rfl, by decide, fun _ => by decide⟩, ⟨rfl, by decide, fun _ => by decide⟩,
    ⟨rfl, by decide, fun h => by cases h⟩⟩

/-- After the last IETF block is half used the sequence left has 32 bytes and no more. -/
theorem witness_CombineEmitsTheKeystream_end :
    (keyedAt 0 0 true 32).hasKeystreamByte .ietf 31 ∧ ¬ (keyedAt 0 0 true 32).hasKeystreamByte .ietf 32 :=
  ⟨.inr (by decide), fun h => h.elim (by simp) (by decide)⟩

/-- A whole command that is GEN, and one that is ENC with a payload other than zero. -/
theorem witness_CombineSplits :
    (∃ t, ([1, 2] : List Byte).length = payloadLen (CombineOp.enc.instr 2) ∧
      ([] : List Byte).length = payloadLen (CombineOp.gen.instr 3) ∧ ([0, 0, 0, 0, 0] : List Byte).length = 2 + 3 ∧
      exec (CombineOp.gen.instr (2 + 3)) { loaded .ietf (keyedAt 1 0 false 50) [] with payload := [] } = .next t ∧
      t.response = some ⟨.ok, CombineOp.gen.output [0, 0, 0, 0, 0] []⟩) ∧
    (∃ t, ([9, 8] : List Byte).length = payloadLen (CombineOp.enc.instr (1 + 1)) ∧
      exec (CombineOp.enc.instr (1 + 1)) { loaded .original (keyedAt 1 0 false 50) [] with payload := [9, 8] } = .next t ∧
      t.response = some ⟨.ok, CombineOp.enc.output [0, 0] [9, 8]⟩) :=
  ⟨⟨_, rfl, rfl, rfl, rfl, by decide⟩, ⟨_, rfl, rfl, by decide⟩⟩

/-- Both clauses: a buffered state, and one with an empty buffer. -/
theorem witness_CombineInvolution :
    (∃ t c, exec (.combineEnc 1) (loaded .ietf (keyedAt 1 0 false 50) [7]) = .next t ∧ t.response = some ⟨.ok, c⟩) ∧
    (∃ t c, exec (.combineEnc 1) (loaded .ietf (keyedAt 0xffffffff 0 false 64) [7]) = .next t ∧
      t.response = some ⟨.ok, c⟩) ∧
    (keyedAt 0xffffffff 0 false 64).pos = 64 ∧ (keyedAt 0xffffffff 0 false 64).exh = false :=
  ⟨⟨_, _, rfl, rfl⟩, ⟨_, _, rfl, rfl⟩, rfl, rfl⟩

theorem witness_CombineOfNothingChangesNothing :
    (loaded .ietf (keyedAt 0 0 true 64) []).engine.keyed = true ∧ (loaded .ietf (keyedAt 0 0 true 64) []).payload = [] := by decide

/-- Exhausted with 16 bytes consumed: 48 may still be used, 49 may not (95_test_vectors.md V-K5). -/
theorem witness_OverflowExactlyWhenBlocksRunOut :
    (keyedAt 0 0 true 16).keyed = true ∧ ([] : List Byte).length = payloadLen (CombineOp.gen.instr 49) ∧
    (keyedAt 0 0 true 16).exh = true ∧ 64 - (keyedAt 0 0 true 16).pos.val < 49 ∧
    ¬ 64 - (keyedAt 0 0 true 16).pos.val < 48 := by decide

theorem witness_CombineCountsBlocks :
    (∃ t out, exec (CombineOp.gen.instr 128) (loaded .original (keyedAt 0xffffffff 0 false 64) []) = .next t ∧
      t.response = some ⟨.ok, out⟩) ∧
    (∃ t out, exec (CombineOp.gen.instr 64) (loaded .ietf (keyedAt 0xffffffff 0 false 64) []) = .next t ∧
      t.response = some ⟨.ok, out⟩) :=
  ⟨⟨_, _, rfl, rfl⟩, ⟨_, _, rfl, rfl⟩⟩

theorem witness_AdvanceCountsOneBlock :
    (keyedAt 0xffffffff 0 false 64).exh = false ∧ (keyedAt 0xffffffff 0 false 64).w[12] = 0xFFFFFFFF ∧
    (keyedAt 5 0 false 64).exh = false ∧ (keyedAt 5 0 false 64).w[12] ≠ 0xFFFFFFFF := by decide

/-- The largest index of each variant. -/
theorem witness_SeekSetsTheCounter :
    zeroKeyed.keyed = true ∧ ([0xff, 0xff, 0xff, 0xff, 0, 0, 0, 0] : List Byte).length = 8 ∧
    (le64 ([0xff, 0xff, 0xff, 0xff, 0, 0, 0, 0] : List Byte) 0).toNat < 2 ^ 32 ∧
    (List.replicate 8 (0xff : Byte)).length = 8 := by decide

/-- `2^32 - 1` falls under the second clause and `2^32` under the first. -/
theorem witness_SeekRangeCheck :
    zeroKeyed.keyed = true ∧
    2 ^ 32 - 1 < (le64 ([0, 0, 0, 0, 1, 0, 0, 0] : List Byte) 0).toNat ∧
    (le64 ([0xff, 0xff, 0xff, 0xff, 0, 0, 0, 0] : List Byte) 0).toNat ≤ 2 ^ 32 - 1 := by decide

theorem witness_SeekKeepsTheConfiguration :
    ∃ t, exec .seek (loaded .ietf zeroKeyed (counting 8)) = .next t := ⟨_, rfl⟩

theorem witness_RandomAccess :
    zeroKeyed.keyed = true ∧ 2 ^ 32 - 1 < 2 ^ ctrBits .ietf ∧ 2 ^ 64 - 1 < 2 ^ ctrBits .original := by decide

/-- Two blocks that differ in the one consumed byte. -/
theorem witness_ConsumedBytesAreUnobservable :
    (keyedAt 1 0 false 1).SameButConsumed { keyedAt 1 0 false 1 with kb := (keyedAt 1 0 false 1).kb.set 0 0xff } ∧
    (keyedAt 1 0 false 1).kb ≠ (keyedAt 1 0 false 1).kb.set 0 0xff :=
  ⟨⟨rfl, rfl, rfl, rfl, rfl, by decide⟩, by decide⟩

theorem witness_PastResponsesAreUnobservable :
    ∃ s', (fed .ietf zeroKeyed [0x23, 0, 0, 0]).engine =
        ({ fed .ietf zeroKeyed [0x23, 0, 0, 0] with sent := [6], response := some ⟨.notKeyed, []⟩ } : State).engine ∧
      step (fed .ietf zeroKeyed [0x23, 0, 0, 0]) = .next s' := ⟨_, rfl, rfl⟩

theorem witness_RotationMovesBits : (16 = 7 ∨ 16 = 8 ∨ 16 = 12 ∨ 16 = 16) ∧ 31 < 32 := by decide

/-- The two passes in reverse order. -/
theorem witness_QuarterRoundsOfAPassCommute :
    ([(3, 7, 11, 15), (2, 6, 10, 14), (1, 5, 9, 13), (0, 4, 8, 12)] : List (Fin 16 × Fin 16 × Fin 16 × Fin 16)).Perm
      [(0, 4, 8, 12), (1, 5, 9, 13), (2, 6, 10, 14), (3, 7, 11, 15)] ∧
    ([(3, 4, 9, 14), (2, 7, 8, 13), (1, 6, 11, 12), (0, 5, 10, 15)] : List (Fin 16 × Fin 16 × Fin 16 × Fin 16)).Perm
      [(0, 5, 10, 15), (1, 6, 11, 12), (2, 7, 8, 13), (3, 4, 9, 14)] := by decide

theorem witness_AssembledCommandsAreComplete :
    assemble (.seek (2 ^ 64 - 1)) = some [(0x00000004, List.replicate 8 0xff)] ∧
    assemble (.encryptLong [1, 2]) = some [(0x00020003, [1, 2])] := by decide

end Sys2Proof.Tests
end

section
/-! PROOFS. Byte order, the one response of a transaction, and the step on a complete command (00_scope.md R10, R13). -/

namespace Sys2Proof.Machine

/-! ### Byte order (00_scope.md R10, 20_memory.md R51 to R53) -/

@[simp] theorem bytesLe32_length (w : Word) : (bytesLe32 w).length = 4 := rfl

/-- `le32(s, 0)` reads the four bytes at the front of `s`. -/
theorem le32_cons (a b c d : Byte) (rest : List Byte) :
    le32 (a :: b :: c :: d :: rest) 0 =
      a.setWidth 32 ||| b.setWidth 32 <<< 8 ||| c.setWidth 32 <<< 16 ||| d.setWidth 32 <<< 24 := rfl

/-- Bit by bit: each bit of the word lies in exactly one of its four bytes, and `le32` puts it back in its place. -/
theorem le32_bytesLe32_append (w : Word) (rest : List Byte) : le32 (bytesLe32 w ++ rest) 0 = w := by
  refine (le32_cons _ _ _ _ rest).trans ?_
  ext i hi
  simp only [BitVec.getElem_or, BitVec.getElem_setWidth, BitVec.getElem_shiftLeft, BitVec.getLsbD_extractLsb']
  rcases (by omega : i < 8 ∨ (8 ≤ i ∧ i < 16) ∨ (16 ≤ i ∧ i < 24) ∨ 24 ≤ i) with h | ⟨h, h'⟩ | ⟨h, h'⟩ | h <;> grind

/-- Word `j + 1` of a stream is word `j` of the stream after its first word. -/
theorem le32_bytesLe32_append_succ (w : Word) (bs : List Byte) (j : Nat) :
    le32 (bytesLe32 w ++ bs) (j + 1) = le32 bs j := rfl

theorem le64_bytesLe64_append (n : BitVec 64) (rest : List Byte) : le64 (bytesLe64 n ++ rest) 0 = n := by
  have lower : le32 (bytesLe64 n ++ rest) 0 = n.extractLsb' 0 32 := by
    rw [bytesLe64, List.append_assoc, le32_bytesLe32_append]
  have upper : le32 (bytesLe64 n ++ rest) 1 = n.extractLsb' 32 32 := by
    rw [bytesLe64, List.append_assoc, le32_bytesLe32_append_succ, le32_bytesLe32_append]
  calc le64 (bytesLe64 n ++ rest) 0
      = n.extractLsb' 32 32 ++ n.extractLsb' 0 32 := congrArg₂ (· ++ ·) upper lower
    _ = n.extractLsb' 0 64 := BitVec.extractLsb'_append_extractLsb'_eq_extractLsb' rfl
    _ = n := BitVec.extractLsb'_eq_self

theorem bytesLe32_getElem? (w : Word) {k : Nat} (h : k < 4) : (bytesLe32 w)[k]? = some (w.extractLsb' (8 * k) 8) := by
  match k, h with
  | 0, _ | 1, _ | 2, _ | 3, _ => rfl

/-- A field of a field of `x` is a field of `x`, further up. -/
theorem extractLsb'_extractLsb'_of_add_le {w start len start' len' : Nat} (x : BitVec w) (h : start + len ≤ len') :
    (x.extractLsb' start' len').extractLsb' start len = x.extractLsb' (start' + start) len := by
  ext i hi
  have inField : start + i < len' := by omega
  simp [inField, Nat.add_assoc]

/-- Byte `k` of an operand is byte `k` of its low word for `k < 4`, and byte `k - 4` of its high word otherwise. -/
theorem bytesLe64_getElem? (n : BitVec 64) {k : Nat} (h : k < 8) :
    (bytesLe64 n)[k]? = some (n.extractLsb' (8 * k) 8) := by
  by_cases hk : k < 4
  · rw [bytesLe64, List.getElem?_append_left hk, bytesLe32_getElem? _ hk,
      extractLsb'_extractLsb'_of_add_le n (by omega), Nat.zero_add]
  · have place : 32 + 8 * (k - 4) = 8 * k := by omega
    rw [bytesLe64, List.getElem?_append_right (Nat.le_of_not_lt hk), bytesLe32_length,
      bytesLe32_getElem? _ (by omega), extractLsb'_extractLsb'_of_add_le n (by omega), place]

/-! ### One response (00_scope.md R13) -/

/-- Executing an instruction always ends with a response. -/
theorem exec_responds (i : Instr) (s : State) : ∃ r e, exec i s = .next (s.respond r e) := by
  rcases exec_cases i s with ⟨-, h⟩ | ⟨-, ⟨_, -, h⟩ | ⟨_, _, -, h⟩⟩ <;> exact ⟨_, _, h⟩

/-- So does a transaction, whatever its header and payload. -/
theorem transact_responds (hdr : Word) (p : List Byte) (s : State) :
    ∃ r e, transact hdr p s = .next (s.respond r e) := by
  rcases transact_cases hdr p s with ⟨-, h⟩ | ⟨i, -, h⟩
  · exact ⟨_, _, h⟩
  · obtain ⟨r, e, he⟩ := exec_responds i { s with payload := p }
    exact ⟨r, e, by rw [h, he, respond_setPayload]⟩

/-! ### A complete command on the input stream (30_encoding.md R71, R80, R81) -/

theorem transact_of_decode {hdr : Word} {i : Instr} (h : decode hdr = some i) (p : List Byte) (s : State) :
    transact hdr p s = exec i { s with payload := p } := by simp [transact, h]

theorem payloadToRead_of_decode {hdr : Word} {i : Instr} (h : decode hdr = some i) :
    payloadToRead hdr = payloadLen i := by simp [payloadToRead, h]

theorem fetchPayload_of_bytes {hdr : Word} {p : List Byte} (rest : List HostEvent) (h : p.length = payloadToRead hdr) :
    fetchPayload hdr (p.map .byte ++ rest) = .command hdr p rest := by
  rw [fetchPayload, ← h, takeBytes_of_bytes]

/-- The four bytes of a header are read back as that header. -/
theorem fetch_of_header (hdr : Word) (ev : List HostEvent) :
    fetch ((bytesLe32 hdr).map .byte ++ ev) = fetchPayload hdr ev := by
  have readBack : le32 (bytesLe32 hdr) 0 = hdr := le32_bytesLe32_append hdr []
  calc fetch ((bytesLe32 hdr).map .byte ++ ev)
      = fetchPayload (le32 (bytesLe32 hdr) 0) ev := rfl
    _ = fetchPayload hdr ev := by rw [readBack]

/-- A header, legal or not, and the payload the block reads after it are one command. -/
theorem fetch_of_command {hdr : Word} {p : List Byte} (rest : List HostEvent) (h : p.length = payloadToRead hdr) :
    fetch ((bytesLe32 hdr ++ p).map .byte ++ rest) = .command hdr p rest := by
  rw [List.map_append, List.append_assoc, fetch_of_header, fetchPayload_of_bytes rest h]

/-- The step on a complete command is its transaction, the stream moved past it. -/
theorem step_of_command {hdr : Word} {p : List Byte} {rest : List HostEvent} {s : State}
    (hp : p.length = payloadToRead hdr) (hs : s.input = (bytesLe32 hdr ++ p).map .byte ++ rest) :
    step s = transact hdr p { s with input := rest } := by
  rw [step, hs, fetch_of_command rest hp]

end Sys2Proof.Machine

/-! ### The obligations -/

namespace Sys2Proof.Proofs

open Sys2Proof.Machine

/-- Settles O16: every path of a transaction ends in `State.respond`, which fixes all the fields the statement names. -/
theorem everyTransactionAnswersOnce : Obligations.EveryTransactionAnswersOnce := by
  intro hdr p s
  obtain ⟨r, e, h⟩ := transact_responds hdr p s
  exact ⟨s.respond r e, r, h, respond_response s r e, respond_output s r e, respond_payload s r e,
    respond_input s r e, respond_variant s r e⟩

/-- Settles O48, from the word's and the operand's round trip and the place of each byte. -/
theorem operandsAreLittleEndian : Obligations.OperandsAreLittleEndian := by
  refine ⟨le32_bytesLe32_append, le64_bytesLe64_append, fun n k => ?_⟩
  rw [bytesLe64_getElem? n k.isLt, BitVec.setWidth_ushiftRight_eq_extractLsb]

/-- Settles O8: the step is the transaction of the command at the front of the stream, and its header decodes to `i`. -/
theorem stepRunsTheDecodedCommand : Obligations.StepRunsTheDecodedCommand := by
  intro hdr i p rest s hdec hlen hin
  have hread : p.length = payloadToRead hdr := hlen.trans (payloadToRead_of_decode hdec).symm
  rw [step_of_command hread hin, transact_of_decode hdec]

end Sys2Proof.Proofs
end

section
/-! PROOFS. What every step keeps of the block's state, what each command writes, and what the host can tell apart
(10_state.md R21 to R37). -/

namespace Sys2Proof.Machine

/-! ### A transaction as a function of the block, the header and the payload (00_scope.md R13) -/

/-- What a transaction makes of the block: its command's own rule behind the checks of the header and of the payload's
length (30_encoding.md R77, R82). -/
def transactRule (v : Variant) (e : Engine) (hdr : Word) (p : List Byte) : CommandResult :=
  match decode hdr with
  | none => .error .illegalCommand
  | some i => if p.length = payloadLen i then commandRule v e i p else .error .illegalCommand

theorem transactRule_of_illegal {hdr : Word} (h : decode hdr = none) (v : Variant) (e : Engine) (p : List Byte) :
    transactRule v e hdr p = .error .illegalCommand := by simp [transactRule, h]

theorem transactRule_of_length {hdr : Word} {i : Instr} {p : List Byte} (h : decode hdr = some i)
    (hp : p.length = payloadLen i) (v : Variant) (e : Engine) :
    transactRule v e hdr p = commandRule v e i p := by simp [transactRule, h, hp]

theorem transactRule_of_length_ne {hdr : Word} {i : Instr} {p : List Byte} (h : decode hdr = some i)
    (hp : p.length ≠ payloadLen i) (v : Variant) (e : Engine) :
    transactRule v e hdr p = .error .illegalCommand := by simp [transactRule, h, hp]

/-- A transaction that succeeds ran the rule of its command on a payload of the right length. -/
theorem transactRule_ok {v : Variant} {e : Engine} {hdr : Word} {p : List Byte} {r : Engine × List Byte}
    (h : transactRule v e hdr p = .ok r) : ∃ i, p.length = payloadLen i ∧ commandRule v e i p = .ok r := by
  cases hd : decode hdr with
  | none => rw [transactRule_of_illegal hd] at h; cases h
  | some i =>
    by_cases hp : p.length = payloadLen i
    · exact ⟨i, hp, by rw [← transactRule_of_length hd hp, h]⟩
    · rw [transactRule_of_length_ne hd hp] at h; cases h

/-- The payload is used up: a command's end does not read it. -/
theorem finish_setPayload (s : State) (p : List Byte) (r : CommandResult) :
    State.finish { s with payload := p } r = s.finish r := by cases r <;> rfl

theorem transact_eq_finish (hdr : Word) (p : List Byte) (s : State) :
    transact hdr p s = .next (s.finish (transactRule s.variant s.engine hdr p)) := by
  cases hd : decode hdr with
  | none => simp [transact, transactRule, hd]
  | some i =>
    rw [transact_of_decode hd, exec_eq_runCommand, State.runCommand, raise_eq_respond]
    by_cases hp : p.length = payloadLen i
    · rw [if_pos hp, transactRule_of_length hd hp, finish_setPayload]
    · rw [if_neg hp, transactRule_of_length_ne hd hp, finish_error, respond_setPayload]

@[simp] theorem finish_variant (s : State) (r : CommandResult) : (s.finish r).variant = s.variant := by cases r <;> rfl
@[simp] theorem finish_input (s : State) (r : CommandResult) : (s.finish r).input = s.input := by cases r <;> rfl
@[simp] theorem finish_payload (s : State) (r : CommandResult) : (s.finish r).payload = [] := by cases r <;> rfl

/-- The response and the block a command ends with depend on the block it began with and on the command's result alone. -/
theorem finish_congr {s t : State} (h : s.engine = t.engine) (r : CommandResult) :
    (s.finish r).engine = (t.finish r).engine ∧ (s.finish r).response = (t.finish r).response := by
  cases r with
  | ok r => exact ⟨rfl, rfl⟩
  | error status => exact ⟨h, rfl⟩

/-- All that a step which answers a next state can do: one transaction, or a reset. -/
theorem step_next {s t : State} (h : step s = .next t) :
    (∃ hdr p rest, t = State.finish { s with input := rest } (transactRule s.variant s.engine hdr p)) ∨
      ∃ k rest, t = s.takeReset k rest := by
  unfold step at h
  split at h
  · next hdr p rest _ =>
    rw [transact_eq_finish] at h
    cases h
    exact .inl ⟨hdr, p, rest, rfl⟩
  · next k rest _ => cases h; exact .inr ⟨k, rest, rfl⟩
  · next rest _ => cases h; exact .inr ⟨_, rest, rfl⟩
  · cases h
  · cases h

/-! ### The counter and the blocks left (43_keystream_combiner.md R164 to R167) -/

theorem ctr_original_lt (e : Engine) : e.ctr .original < 2 ^ 64 := by
  have h12 := e.w[12].isLt
  have h13 := e.w[13].isLt
  simp only [Engine.ctr]
  omega

/-- An IETF counter below `2^32` is word 12, with `EXH` clear (10_state.md R25). -/
theorem ctr_ietf_lt {e : Engine} (h : e.ctr .ietf < 2 ^ 32) : e.exh = false ∧ e.ctr .ietf = e.w[12].toNat := by
  cases hx : e.exh with
  | true => simp [Engine.ctr, hx] at h
  | false => simp [Engine.ctr, hx]

theorem ctr_ietf_of_exh {e : Engine} (h : e.exh = true) : e.ctr .ietf = 2 ^ 32 + e.w[12].toNat := by
  simp [Engine.ctr, h]

theorem ctr_ietf_of_not_exh {e : Engine} (h : e.exh = false) : e.ctr .ietf = e.w[12].toNat := by
  simp [Engine.ctr, h]

/-- The ORIGINAL counter words after an advance: a carry out of word 12 goes into word 13 (43_keystream_combiner.md R165). -/
theorem advance_original (e : Engine) :
    (e.w[12] + 1 = 0 ∧ (e.advance .original).w[12] = 0 ∧ (e.advance .original).w[13] = e.w[13] + 1) ∨
    (e.w[12] + 1 ≠ 0 ∧ (e.advance .original).w[12] = e.w[12] + 1 ∧ (e.advance .original).w[13] = e.w[13]) := by
  unfold Engine.advance
  dsimp only
  split
  · next carry => exact .inl ⟨carry, by simpa using carry, by simp⟩
  · next noCarry => exact .inr ⟨noCarry, by simp, by simp⟩

/-- ORIGINAL counts modulo `2^64` (43_keystream_combiner.md R165). -/
theorem advance_ctr_original (e : Engine) : (e.advance .original).ctr .original = (e.ctr .original + 1) % 2 ^ 64 := by
  rcases advance_original e with ⟨carry, lo, hi⟩ | ⟨noCarry, lo, hi⟩
  · simp only [Engine.ctr, lo, hi]
    bv_omega
  · simp only [Engine.ctr, lo, hi]
    bv_omega

/-- IETF counts up to `2^32` (43_keystream_combiner.md R166). -/
theorem advance_ctr_ietf {e : Engine} (h : e.ctr .ietf < 2 ^ 32) : (e.advance .ietf).ctr .ietf = e.ctr .ietf + 1 := by
  obtain ⟨hx, hc⟩ := ctr_ietf_lt h
  rcases advance_ietf e with ⟨top, hw, hx'⟩ | ⟨notTop, hw, hx'⟩
  · rw [ctr_ietf_of_exh hx', hw, hc, top]; rfl
  · rw [ctr_ietf_of_not_exh (hx'.trans hx), hw, hc]; bv_omega

@[simp] theorem ctr_setBuffer (v : Variant) (e : Engine) (b : Block) (q : Fin 65) :
    Engine.ctr v { e with kb := b, pos := q } = e.ctr v := rfl

theorem refill_ctr_ietf {e : Engine} (h : e.ctr .ietf < 2 ^ 32) : (e.refill .ietf).ctr .ietf = e.ctr .ietf + 1 := by
  rw [Engine.refill, advance_ctr_ietf (by rwa [ctr_setBuffer]), ctr_setBuffer]

theorem refill_ctr_original (e : Engine) : (e.refill .original).ctr .original = (e.ctr .original + 1) % 2 ^ 64 := by
  rw [Engine.refill, advance_ctr_original, ctr_setBuffer]

@[simp] theorem consumeAt_ctr (v : Variant) (e : Engine) (p : Fin 64) : (e.consumeAt p).2.ctr v = e.ctr v := rfl

/-- Setting the counter forgets how far it had advanced. -/
theorem counterWords_refill (v : Variant) (e : Engine) (n : Nat) :
    counterWords v (e.refill v).w n = counterWords v e.w n := by
  ext j hj : 1
  by_cases h : NotCounterWord v ⟨j, hj⟩
  · have left := counterWords_frame v (e.refill v).w n ⟨j, hj⟩ h
    have right := counterWords_frame v e.w n ⟨j, hj⟩ h
    exact left.trans ((refill_frame v e ⟨j, hj⟩ h).trans right.symm)
  · cases v with
    | original =>
      have hj' : j = 12 ∨ j = 13 := by simp [NotCounterWord] at h; omega
      rcases hj' with rfl | rfl <;> simp [counterWords]
    | ietf =>
      have hj' : j = 12 := by simp [NotCounterWord] at h; omega
      subst hj'
      simp [counterWords]

@[simp] theorem blocksNeeded_zero (e : Engine) : e.blocksNeeded 0 = 0 := rfl

/-- A buffered byte costs no block. -/
theorem blocksNeeded_consumeAt {e : Engine} (h : e.pos.val < 64) (n : Nat) :
    (e.consumeAt ⟨e.pos.val, h⟩).2.blocksNeeded n = e.blocksNeeded (n + 1) := by
  have left : (e.consumeAt ⟨e.pos.val, h⟩).2.avail = e.avail - 1 := rfl
  have some_left : 0 < e.avail := Nat.sub_pos_of_lt h
  simp only [Engine.blocksNeeded, left]
  split <;> split <;> omega

/-- On an empty buffer the next byte costs one block, which holds the 63 bytes after it. -/
theorem blocksNeeded_of_empty (v : Variant) {e : Engine} (h : e.pos = 64) (n : Nat) :
    e.blocksNeeded (n + 1) = ((e.refill v).consumeAt 0).2.blocksNeeded n + 1 := by
  have none_left : e.avail = 0 := by simp [Engine.avail, h]
  have left : ((e.refill v).consumeAt 0).2.avail = 63 := rfl
  simp only [Engine.blocksNeeded, none_left, left]
  split <;> split <;> omega

theorem overflows_ietf {e : Engine} {n : Nat} :
    e.overflows .ietf n = false ↔ e.blocksNeeded n ≤ 2 ^ 32 - e.ctr .ietf := by
  simp only [Engine.overflows, decide_eq_false_iff_not, Nat.not_lt]
  rfl

/-- A request that passes the check still passes it after a buffered byte. -/
theorem overflows_consumeAt {v : Variant} {e : Engine} {n : Nat} (h : e.pos.val < 64)
    (hov : e.overflows v (n + 1) = false) : (e.consumeAt ⟨e.pos.val, h⟩).2.overflows v n = false := by
  cases v with
  | original => rfl
  | ietf =>
    rw [overflows_ietf] at hov ⊢
    rwa [blocksNeeded_consumeAt h, consumeAt_ctr]

/-- A request that passes the check on an empty buffer has a block left for the refill. -/
theorem ctr_lt_of_not_overflows {v : Variant} {e : Engine} {n : Nat} (h : e.pos = 64)
    (hov : e.overflows v (n + 1) = false) : e.ctr v < 2 ^ ctrBits v := by
  cases v with
  | original => exact ctr_original_lt e
  | ietf =>
    rw [overflows_ietf, blocksNeeded_of_empty .ietf h] at hov
    simp only [ctrBits]
    omega

/-- A request that passes the check on an empty buffer still passes it after the refill and its first byte. -/
theorem overflows_refill {v : Variant} {e : Engine} {n : Nat} (h : e.pos = 64)
    (hov : e.overflows v (n + 1) = false) : ((e.refill v).consumeAt 0).2.overflows v n = false := by
  cases v with
  | original => rfl
  | ietf =>
    have hlt : e.ctr .ietf < 2 ^ 32 := ctr_lt_of_not_overflows h hov
    rw [overflows_ietf] at hov ⊢
    rw [blocksNeeded_of_empty .ietf h] at hov
    rw [consumeAt_ctr, refill_ctr_ietf hlt]
    omega

/-! ### The loop of a COMBINE that passes the check -/

/-- Induction along the loop of a COMBINE that passes `OverflowCheck` (43_keystream_combiner.md R163, R167): a property of the
block and of the number of bytes still to make holds at the end when a buffered byte and a refill, for which a block is
left, both keep it. -/
theorem combineLoop_induction {v : Variant} {P : Nat → Engine → Prop}
    (buffered : ∀ n e (h : e.pos.val < 64), P (n + 1) e → P n (e.consumeAt ⟨e.pos.val, h⟩).2)
    (refilled : ∀ n e, e.pos = 64 → e.ctr v < 2 ^ ctrBits v → P (n + 1) e → P n ((e.refill v).consumeAt 0).2)
    (bs : List (Option Byte)) (e : Engine) (hov : e.overflows v bs.length = false) (start : P bs.length e) :
    P 0 (Engine.combineLoop v bs e).2 := by
  induction bs generalizing e with
  | nil => exact start
  | cons b bs ih =>
    rw [combineLoop_cons]
    rcases nextKeyByte_cases v e with ⟨h, hn⟩ | ⟨h, hn⟩
    · rw [hn]
      exact ih _ (overflows_consumeAt h hov) (buffered _ e h start)
    · rw [hn]
      exact ih _ (overflows_refill h hov) (refilled _ e h (ctr_lt_of_not_overflows h hov) start)

/-- The IETF counter counts the blocks a request needs (43_keystream_combiner.md R172). -/
theorem combineLoop_ctr_ietf {bs : List (Option Byte)} {e : Engine} (hov : e.overflows .ietf bs.length = false) :
    (Engine.combineLoop .ietf bs e).2.ctr .ietf = e.ctr .ietf + e.blocksNeeded bs.length := by
  have count : (Engine.combineLoop .ietf bs e).2.ctr .ietf + (Engine.combineLoop .ietf bs e).2.blocksNeeded 0 =
      e.ctr .ietf + e.blocksNeeded bs.length := by
    refine combineLoop_induction
      (P := fun n f => f.ctr .ietf + f.blocksNeeded n = e.ctr .ietf + e.blocksNeeded bs.length) ?_ ?_ bs e hov rfl
    · intro n f h hf
      rw [← hf, consumeAt_ctr, blocksNeeded_consumeAt h]
    · intro n f hpos hlt hf
      rw [← hf, consumeAt_ctr, refill_ctr_ietf hlt, blocksNeeded_of_empty .ietf hpos]
      omega
  rwa [blocksNeeded_zero, Nat.add_zero] at count

/-- Where `EXH` is legal it says that the IETF counter is at `2^32` (10_state.md R28). -/
theorem exh_iff_ctr_ietf {e : Engine} (h : e.ExhLegal .ietf) : e.exh = true ↔ e.ctr .ietf = 2 ^ 32 := by
  have h12 := e.w[12].isLt
  cases hx : e.exh with
  | true =>
    have hw : e.w[12] = 0 := h.2 rfl hx
    simp [ctr_ietf_of_exh hx, hw]
  | false =>
    rw [ctr_ietf_of_not_exh hx]
    simp only [Bool.false_eq_true, false_iff]
    omega

theorem exhLegal_of_not_exh {e : Engine} (v : Variant) (h : e.exh = false) : e.ExhLegal v :=
  ⟨fun _ => h, fun _ hx => absurd (h.symm.trans hx) Bool.false_ne_true⟩

/-- A refill for which a block is left sets `EXH` in IETF alone, and only with word 12 at 0 (43_keystream_combiner.md R166). -/
theorem refill_exhLegal {v : Variant} {e : Engine} (hlt : e.ctr v < 2 ^ ctrBits v) (h : e.ExhLegal v) :
    (e.refill v).ExhLegal v := by
  cases v with
  | original => exact exhLegal_of_not_exh _ ((advance_exh_original _).trans (h.1 rfl))
  | ietf =>
    obtain ⟨hx, -⟩ := ctr_ietf_lt hlt
    rcases advance_ietf { e with kb := block e.w e.rounds, pos := 0 } with ⟨-, hw, -⟩ | ⟨-, -, hx'⟩
    · exact ⟨fun hv => (nomatch hv), fun _ _ => hw⟩
    · exact exhLegal_of_not_exh _ (hx'.trans hx)

theorem combineLoop_exhLegal {v : Variant} {bs : List (Option Byte)} {e : Engine}
    (hov : e.overflows v bs.length = false) (h : e.ExhLegal v) : (Engine.combineLoop v bs e).2.ExhLegal v :=
  combineLoop_induction (P := fun _ f => f.ExhLegal v) (fun _ _ _ hf => hf)
    (fun _ _ _ hlt hf => refill_exhLegal hlt hf) bs e hov h

/-- A refill never clears `EXH`. -/
theorem refill_exh_of_exh (v : Variant) {e : Engine} (h : e.exh = true) : (e.refill v).exh = true := by
  cases v with
  | original => exact (advance_exh_original _).trans h
  | ietf =>
    rcases advance_ietf { e with kb := block e.w e.rounds, pos := 0 } with ⟨-, -, hx⟩ | ⟨-, -, hx⟩
    · exact hx
    · exact hx.trans h

theorem combineLoop_exh_of_exh {v : Variant} {bs : List (Option Byte)} {e : Engine}
    (hov : e.overflows v bs.length = false) (h : e.exh = true) : (Engine.combineLoop v bs e).2.exh = true :=
  combineLoop_induction (P := fun _ f => f.exh = true) (fun _ _ _ hf => hf)
    (fun _ _ _ _ hf => refill_exh_of_exh v hf) bs e hov h

/-- One input for each byte asked for, when the payload has its length (30_encoding.md R75). -/
theorem combineInputs_length {mode : CombineMode} {len : Nat} {p : List Byte} (h : mode = .xor → p.length = len) :
    (combineInputs mode len p).length = len := by
  cases mode with
  | xor => simpa [combineInputs] using h rfl
  | gen => simp [combineInputs]

/-- A COMBINE that succeeds is the loop over as many inputs as bytes were asked for, after a check that it passed. -/
theorem combine_ok_loop {v : Variant} {mode : CombineMode} {len : Nat} {e e' : Engine} {p out : List Byte}
    (h : e.combine v mode len p = .ok (e', out)) (hp : mode = .xor → p.length = len) :
    e.keyed = true ∧ ∃ bs : List (Option Byte), bs.length = len ∧ e.overflows v bs.length = false ∧
      e' = (Engine.combineLoop v bs e).2 := by
  obtain ⟨hk, hov, hloop⟩ := combine_ok h
  have hlen : (combineInputs mode len p).length = len := combineInputs_length hp
  exact ⟨hk, combineInputs mode len p, hlen, by rwa [hlen], by rw [hloop]⟩

/-! ### The invariant (10_state.md R32) -/

/-- The constants and key words are words 0 to 11 (10_state.md R21). -/
theorem keyMaterialLegal_congr {v : Variant} {e f : Engine} (hw : ∀ j : Fin 16, j.val < 12 → f.w[j] = e.w[j])
    (h : e.KeyMaterialLegal v) : f.KeyMaterialLegal v := by
  have word (j : Nat) (hj : j < 12) : f.w[j] = e.w[j] := hw ⟨j, by omega⟩ hj
  rcases h with hSigma | ⟨hv, hTau, hKey⟩
  · exact .inl fun j => (word _ (by omega)).trans (hSigma j)
  · refine .inr ⟨hv, fun j => (word _ (by omega)).trans (hTau j), fun j => ?_⟩
    rw [word _ (by omega), word _ (by omega), hKey j]

/-- On a keyed block the setup is legal when the key material is. -/
theorem setupLegal_of_keyed {v : Variant} {e : Engine} (hk : e.keyed = true) (h : e.KeyMaterialLegal v) :
    e.SetupLegal v :=
  ⟨fun hk' => (nomatch hk.symm.trans hk'), fun _ => h⟩

/-- An empty buffer is legal. -/
theorem bufferLegal_of_empty {v : Variant} {e : Engine} (h : e.pos = 64) : e.BufferLegal v :=
  fun hlt => absurd hlt (by rw [h]; decide)

theorem reset_inv (v : Variant) : Engine.reset.Inv v where
  rounds := ⟨by decide, fun _ => rfl⟩
  exh := exhLegal_of_not_exh v rfl
  buffer := bufferLegal_of_empty rfl
  setup := ⟨fun _ => rfl, fun h => nomatch h⟩

/-- The round count SETKEY stores is one of the seven, and 20 in IETF (10_state.md R26). -/
theorem roundsStored_legal {v : Variant} {rnd : Nat} (h : roundsOk v rnd = true) :
    roundsStored v rnd ∈ legalRounds ∧ (v = .ietf → roundsStored v rnd = 20) := by
  cases v with
  | original => exact ⟨List.contains_iff_mem.mp h, fun hv => nomatch hv⟩
  | ietf => exact ⟨(by decide : 20 ∈ legalRounds), fun _ => rfl⟩

/-- The legal key lengths: 32 bytes, or 16 in ORIGINAL (00_scope.md R7). -/
theorem keyBytesOk_cases {v : Variant} {len : Nat} (h : keyBytesOk v len = true) :
    len = 32 ∨ (len = 16 ∧ v = .original) := by
  cases v with
  | original =>
    have either : len = 16 ∨ len = 32 := by simpa [keyBytesOk] using h
    exact either.symm.imp_right fun h16 => ⟨h16, rfl⟩
  | ietf => exact .inl (by simpa [keyBytesOk] using h)

theorem initialWords_constant (len : Nat) (key : List Byte) (j : Fin 4) :
    (initialWords len key)[j.val] = (constantWords len)[j] := by
  simp [initialWords]

theorem initialWords_key (len : Nat) (key : List Byte) (j : Fin 8) :
    (initialWords len key)[4 + j.val] = keyWord len key j.val := by
  have h12 : 4 + j.val < 12 := by omega
  simp [initialWords, h12]

theorem initialWords_counter_nonce (len : Nat) (key : List Byte) (j : Fin 16) (h : 12 ≤ j.val) :
    (initialWords len key)[j] = 0 := by
  have h4 : ¬ j.val < 4 := by omega
  have h12 : ¬ j.val < 12 := by omega
  simp [initialWords, h4, h12]

/-- A 32-byte key takes `SIGMA`; a 16-byte key takes `TAU` and gives its four words twice (10_state.md R22, R23). -/
theorem setkey_keyMaterialLegal {v : Variant} {len : Nat} (h : keyBytesOk v len = true) {e : Engine} {key : List Byte}
    (hw : e.w = initialWords len key) : e.KeyMaterialLegal v := by
  rcases keyBytesOk_cases h with rfl | ⟨rfl, hv⟩
  · exact .inl fun j => by rw [hw, initialWords_constant]; rfl
  · refine .inr ⟨hv, fun j => by rw [hw, initialWords_constant]; rfl, fun j => ?_⟩
    have first := initialWords_key 16 key ⟨j.val, by omega⟩
    have second := initialWords_key 16 key ⟨4 + j.val, by omega⟩
    have same : keyWord 16 key (4 + j.val) = keyWord 16 key j.val := by simp [keyWord]
    simp only [hw]
    calc (initialWords 16 key)[4 + j.val] = keyWord 16 key j.val := first
      _ = keyWord 16 key (4 + j.val) := same.symm
      _ = (initialWords 16 key)[4 + (4 + j.val)] := second.symm
      _ = (initialWords 16 key)[8 + j.val] := by congr 1; omega

theorem setkey_keeps_inv {v : Variant} {rnd len : Nat} {e e' : Engine} {p out : List Byte}
    (h : e.setkey v rnd len p = .ok (e', out)) : e'.Inv v := by
  obtain ⟨hLen, hRnd, -, rfl⟩ := setkey_ok h
  exact {
    rounds := roundsStored_legal hRnd
    exh := exhLegal_of_not_exh v rfl
    buffer := bufferLegal_of_empty rfl
    setup := setupLegal_of_keyed rfl (setkey_keyMaterialLegal hLen rfl) }

/-- A command that empties the buffer, clears `EXH` and leaves the key material keeps the invariant. -/
theorem inv_of_emptied {v : Variant} {e f : Engine} (h : e.Inv v) (hk : e.keyed = true)
    (hw : ∀ j : Fin 16, j.val < 12 → f.w[j] = e.w[j]) (hr : f.rounds = e.rounds) (hk' : f.keyed = e.keyed)
    (hx : f.exh = false) (hp : f.pos = 64) : f.Inv v where
  rounds := by simpa only [Engine.RoundsLegal, hr] using h.rounds
  exh := exhLegal_of_not_exh v hx
  buffer := bufferLegal_of_empty hp
  setup := setupLegal_of_keyed (hk'.trans hk) (keyMaterialLegal_congr hw (h.setup.2 hk))

/-- The nonce words are words 13 to 15, and 13 in IETF only (10_state.md R24). -/
theorem nonceWords_frame (v : Variant) (w : Words) (iv : List Byte) (j : Fin 16)
    (h : j.val < 13 ∨ (j.val = 13 ∧ v = .original)) : (nonceWords v w iv)[j] = w[j] := by
  have h14 : 14 ≠ j.val := by omega
  have h15 : 15 ≠ j.val := by omega
  cases v with
  | original => simp [nonceWords, h14, h15]
  | ietf =>
    have h13 : 13 ≠ j.val := by rcases h with h | ⟨-, h⟩ <;> [omega; cases h]
    simp [nonceWords, h13, h14, h15]

/-- RESYNC leaves the constants and the key (10_state.md R33). -/
theorem resync_words_frame (v : Variant) (w : Words) (n : Nat) (iv : List Byte) (j : Fin 16) (h : j.val < 12) :
    (nonceWords v (counterWords v w n) iv)[j] = w[j] :=
  (nonceWords_frame v _ iv j (.inl (by omega))).trans (counterWords_frame v w n j (.inl h))

theorem resync_keeps_inv {v : Variant} {len : Nat} {e e' : Engine} {p out : List Byte}
    (h : e.resync v len p = .ok (e', out)) (hi : e.Inv v) : e'.Inv v := by
  obtain ⟨hk, -, -, -, rfl⟩ := resync_ok h
  exact inv_of_emptied hi hk (resync_words_frame v e.w _ p) rfl rfl rfl rfl

theorem seek_keeps_inv {v : Variant} {e e' : Engine} {p out : List Byte}
    (h : e.seek v p = .ok (e', out)) (hi : e.Inv v) : e'.Inv v := by
  obtain ⟨hk, -, -, rfl⟩ := seek_ok h
  exact inv_of_emptied hi hk (fun j hj => counterWords_frame v e.w _ j (.inl hj)) rfl rfl rfl rfl

/-- After a refill the block the counter has just passed is the one it stood at (10_state.md R30). -/
theorem refill_passedBlock {v : Variant} {e : Engine} (hlt : e.ctr v < 2 ^ ctrBits v) :
    (e.refill v).passedBlock v = e.ctr v := by
  cases v with
  | original =>
    simp only [ctrBits] at hlt
    simp only [Engine.passedBlock, refill_ctr_original, ctrBits]
    omega
  | ietf =>
    simp only [ctrBits] at hlt
    simp only [Engine.passedBlock, refill_ctr_ietf hlt, ctrBits]
    omega

/-- A refill fills the buffer with the block of the state as it stands, which is the block of its counter
(43_keystream_combiner.md R164). -/
theorem refill_bufferLegal {v : Variant} {e : Engine} (hlt : e.ctr v < 2 ^ ctrBits v) : (e.refill v).BufferLegal v := by
  intro _
  constructor
  · rintro rfl
    rw [refill_ctr_ietf hlt]
    omega
  · rw [Engine.blockAt, refill_passedBlock hlt, counterWords_refill, counterWords_ctr, refill_kb, refill_rounds]

theorem refill_keeps_inv {v : Variant} {e : Engine} (hlt : e.ctr v < 2 ^ ctrBits v) (hk : e.keyed = true)
    (h : e.Inv v) : (e.refill v).Inv v where
  rounds := by simpa only [Engine.RoundsLegal, refill_rounds] using h.rounds
  exh := refill_exhLegal hlt h.exh
  buffer := refill_bufferLegal hlt
  setup := setupLegal_of_keyed (by rw [refill_keyed, hk])
    (keyMaterialLegal_congr (fun j hj => refill_frame v e j (.inl hj)) (h.setup.2 hk))

/-- Reading a buffered byte moves the cursor only, and the buffer keeps its block. -/
theorem consumeAt_keeps_inv {v : Variant} {e : Engine} {p : Fin 64} (hp : e.pos.val < 64) (hk : e.keyed = true)
    (h : e.Inv v) : (e.consumeAt p).2.Inv v where
  rounds := h.rounds
  exh := h.exh
  buffer := fun _ => h.buffer hp
  setup := setupLegal_of_keyed hk (h.setup.2 hk)

theorem combineLoop_keeps_inv {v : Variant} {bs : List (Option Byte)} {e : Engine}
    (hov : e.overflows v bs.length = false) (hk : e.keyed = true) (h : e.Inv v) :
    (Engine.combineLoop v bs e).2.Inv v := by
  have both : (Engine.combineLoop v bs e).2.keyed = true ∧ (Engine.combineLoop v bs e).2.Inv v := by
    refine combineLoop_induction (P := fun _ f => f.keyed = true ∧ f.Inv v) ?_ ?_ bs e hov ⟨hk, h⟩
    · rintro n f hp ⟨hkf, hf⟩
      exact ⟨hkf, consumeAt_keeps_inv hp hkf hf⟩
    · rintro n f - hlt ⟨hkf, hf⟩
      have hkr : (f.refill v).keyed = true := (refill_keyed v f).trans hkf
      exact ⟨hkr, consumeAt_keeps_inv (by simp) hkr (refill_keeps_inv hlt hkf hf)⟩
  exact both.2

theorem combine_keeps_inv {v : Variant} {mode : CombineMode} {len : Nat} {e e' : Engine} {p out : List Byte}
    (h : e.combine v mode len p = .ok (e', out)) (hp : mode = .xor → p.length = len) (hi : e.Inv v) : e'.Inv v := by
  obtain ⟨hk, bs, -, hov, rfl⟩ := combine_ok_loop h hp
  exact combineLoop_keeps_inv hov hk hi

theorem commandRule_keeps_inv {v : Variant} {e e' : Engine} {i : Instr} {p out : List Byte}
    (h : commandRule v e i p = .ok (e', out)) (hp : p.length = payloadLen i) (hi : e.Inv v) : e'.Inv v := by
  cases i with
  | setkey rnd len => exact setkey_keeps_inv h
  | resync len => exact resync_keeps_inv h hi
  | combineEnc len => exact combine_keeps_inv h (fun _ => hp) hi
  | combineDec len => exact combine_keeps_inv h (fun _ => hp) hi
  | combineGen len => exact combine_keeps_inv h (fun hm => nomatch hm) hi
  | seek => exact seek_keeps_inv h hi

/-- A transaction keeps the invariant: a failing one leaves the block, a successful one ran a command's rule. -/
theorem transactRule_keeps_inv {s : State} {v : Variant} (hdr : Word) (p : List Byte) (hi : s.engine.Inv v) :
    (s.finish (transactRule v s.engine hdr p)).engine.Inv v := by
  cases hr : transactRule v s.engine hdr p with
  | error status => exact hi
  | ok r =>
    obtain ⟨i, hp, hrule⟩ := transactRule_ok hr
    exact commandRule_keeps_inv hrule hp hi

/-! ### What the host can tell apart (10_state.md R29, R36, R37) -/

theorem sameButConsumed_refl (e : Engine) : e.SameButConsumed e := ⟨rfl, rfl, rfl, rfl, rfl, fun _ _ => rfl⟩

/-- On an empty buffer every byte is consumed, so `KB` does not matter. -/
theorem sameButConsumed_of_empty {e f : Engine} (hw : e.w = f.w) (hr : e.rounds = f.rounds) (hk : e.keyed = f.keyed)
    (hx : e.exh = f.exh) (hp : e.pos = 64) (hp' : f.pos = 64) : e.SameButConsumed f :=
  ⟨hw, hr, hk, hx, hp.trans hp'.symm, fun j hj => absurd hj (by rw [hp]; exact Nat.not_le.mpr j.isLt)⟩

/-- The host cannot tell two results apart: the same error, or the same output with blocks that differ in consumed bytes
only. -/
def SameResult : CommandResult → CommandResult → Prop
  | .ok (e, out), .ok (f, out') => out = out' ∧ e.SameButConsumed f
  | .error status, .error status' => status = status'
  | _, _ => False

/-- Results that cannot be told apart give the same response, and leave both blocks as they were or with the same values but for
consumed bytes. -/
theorem finish_same_or_unchanged {s t : State} {r r' : CommandResult} (hr : SameResult r r') :
    (s.finish r).response = (t.finish r').response ∧
      (((s.finish r).engine = s.engine ∧ (t.finish r').engine = t.engine) ∨
        (s.finish r).engine.SameButConsumed (t.finish r').engine) := by
  match r, r', hr with
  | .ok (e, out), .ok (f, _), ⟨rfl, hsame⟩ => exact ⟨rfl, .inr hsame⟩
  | .error status, .error _, rfl => exact ⟨rfl, .inl ⟨rfl, rfl⟩⟩

/-- From blocks that differ in consumed bytes only they leave such blocks. -/
theorem finish_same {s t : State} {r r' : CommandResult} (h : s.engine.SameButConsumed t.engine)
    (hr : SameResult r r') :
    (s.finish r).response = (t.finish r').response ∧ (s.finish r).engine.SameButConsumed (t.finish r').engine := by
  obtain ⟨hresp, ⟨hs, ht⟩ | hsame⟩ := finish_same_or_unchanged (s := s) (t := t) hr
  · exact ⟨hresp, by rwa [hs, ht]⟩
  · exact ⟨hresp, hsame⟩

theorem requireKeyed_same {e f : Engine} {r r' : CommandResult} (hk : e.keyed = f.keyed) (hr : SameResult r r') :
    SameResult (e.requireKeyed r) (f.requireKeyed r') := by
  unfold Engine.requireKeyed
  rw [hk]
  split
  · exact hr
  · rfl

/-- SETKEY builds the state afresh but for `KB` (41_state_init.md R104). -/
theorem setkey_same (v : Variant) (rnd len : Nat) (e f : Engine) (p : List Byte) :
    SameResult (e.setkey v rnd len p) (f.setkey v rnd len p) := by
  unfold Engine.setkey
  split
  · rfl
  · split
    · rfl
    · exact ⟨rfl, sameButConsumed_of_empty rfl rfl rfl rfl rfl rfl⟩

theorem resync_same {v : Variant} {e f : Engine} (h : e.SameButConsumed f) (len : Nat) (p : List Byte) :
    SameResult (e.resync v len p) (f.resync v len p) := by
  obtain ⟨hw, hr, hk, -⟩ := h
  refine requireKeyed_same hk ?_
  split
  · rfl
  · split
    · rfl
    · exact ⟨rfl, sameButConsumed_of_empty (by simp [hw]) hr hk rfl rfl rfl⟩

theorem seek_same {v : Variant} {e f : Engine} (h : e.SameButConsumed f) (p : List Byte) :
    SameResult (e.seek v p) (f.seek v p) := by
  obtain ⟨hw, hr, hk, -⟩ := h
  refine requireKeyed_same hk ?_
  split
  · rfl
  · exact ⟨rfl, sameButConsumed_of_empty (by simp [hw]) hr hk rfl rfl rfl⟩

theorem ctr_congr {v : Variant} {e f : Engine} (hw : e.w = f.w) (hx : e.exh = f.exh) : e.ctr v = f.ctr v := by
  simp only [Engine.ctr, hw, hx]

theorem overflows_same {v : Variant} {e f : Engine} (h : e.SameButConsumed f) (len : Nat) :
    e.overflows v len = f.overflows v len := by
  obtain ⟨hw, -, -, hx, hp, -⟩ := h
  have hctr : e.ctr .ietf = f.ctr .ietf := ctr_congr hw hx
  have hleft : e.blocksLeft = f.blocksLeft := congrArg (2 ^ 32 - ·) hctr
  have havail : e.avail = f.avail := by rw [Engine.avail, hp, Engine.avail]
  have hneed : e.blocksNeeded len = f.blocksNeeded len := by simp only [Engine.blocksNeeded, havail]
  simp only [Engine.overflows, hleft, hneed]

/-- A refill writes the whole buffer, so nothing of the old one is left. -/
theorem refill_of_same {v : Variant} {e f : Engine} (h : e.SameButConsumed f) : e.refill v = f.refill v := by
  obtain ⟨hw, hr, hk, hx, -⟩ := h
  simp only [Engine.refill, hw, hr, hk, hx]

/-- The next keystream byte is an unconsumed one. -/
theorem nextKeyByte_same {v : Variant} {e f : Engine} (h : e.SameButConsumed f) :
    (e.nextKeyByte v).1 = (f.nextKeyByte v).1 ∧ (e.nextKeyByte v).2.SameButConsumed (f.nextKeyByte v).2 := by
  have hsame := h
  obtain ⟨hw, hr, hk, hx, hp, hkb⟩ := h
  by_cases hbuf : e.pos.val < 64
  · have hbuf' : f.pos.val < 64 := hp ▸ hbuf
    have hcur : (⟨f.pos.val, hbuf'⟩ : Fin 64) = ⟨e.pos.val, hbuf⟩ := by simp only [hp]
    rw [nextKeyByte_of_buffered v hbuf, nextKeyByte_of_buffered v hbuf', hcur]
    exact ⟨hkb _ (le_refl _), hw, hr, hk, hx, rfl, fun j hj => hkb j (Nat.le_of_succ_le hj)⟩
  · have hbuf' : ¬ f.pos.val < 64 := hp ▸ hbuf
    rw [nextKeyByte_of_empty v hbuf, nextKeyByte_of_empty v hbuf', refill_of_same hsame]
    exact ⟨rfl, sameButConsumed_refl _⟩

theorem combineLoop_same {v : Variant} (bs : List (Option Byte)) {e f : Engine} (h : e.SameButConsumed f) :
    (Engine.combineLoop v bs e).1 = (Engine.combineLoop v bs f).1 ∧
      (Engine.combineLoop v bs e).2.SameButConsumed (Engine.combineLoop v bs f).2 := by
  induction bs generalizing e f with
  | nil => exact ⟨rfl, h⟩
  | cons b bs ih =>
    obtain ⟨hbyte, hnext⟩ := nextKeyByte_same (v := v) h
    obtain ⟨hout, hend⟩ := ih hnext
    rw [combineLoop_cons, combineLoop_cons, hbyte, hout]
    exact ⟨rfl, hend⟩

theorem combine_same {v : Variant} {e f : Engine} (h : e.SameButConsumed f) (mode : CombineMode) (len : Nat)
    (p : List Byte) : SameResult (e.combine v mode len p) (f.combine v mode len p) := by
  have hsame := h
  obtain ⟨-, -, hk, -⟩ := h
  refine requireKeyed_same hk ?_
  rw [overflows_same hsame]
  split
  · rfl
  · exact combineLoop_same _ hsame

theorem commandRule_same {v : Variant} {e f : Engine} (h : e.SameButConsumed f) (i : Instr) (p : List Byte) :
    SameResult (commandRule v e i p) (commandRule v f i p) := by
  cases i with
  | setkey rnd len => exact setkey_same v rnd len e f p
  | resync len => exact resync_same h len p
  | combineEnc len => exact combine_same h .xor len p
  | combineDec len => exact combine_same h .xor len p
  | combineGen len => exact combine_same h .gen len p
  | seek => exact seek_same h p

/-- Blocks on which every command's rule gives results that cannot be told apart answer every transaction so. -/
theorem transactRule_same {v : Variant} {e f : Engine} {p : List Byte}
    (h : ∀ i, SameResult (commandRule v e i p) (commandRule v f i p)) (hdr : Word) :
    SameResult (transactRule v e hdr p) (transactRule v f hdr p) := by
  unfold transactRule
  split
  · rfl
  · next i _ =>
    split
    · exact h i
    · rfl

/-- Every command but SETKEY answers `NotKeyed` on an unkeyed block (60_exceptions.md R222). -/
theorem commandRule_of_not_keyed {v : Variant} {e : Engine} {i : Instr} (hi : ∀ rnd len, i ≠ .setkey rnd len)
    (hk : e.keyed = false) (p : List Byte) : commandRule v e i p = .error .notKeyed := by
  cases i with
  | setkey rnd len => exact absurd rfl (hi rnd len)
  | resync len | combineEnc len | combineDec len | combineGen len | seek => exact requireKeyed_of_not_keyed _ hk

/-- Two unkeyed blocks cannot be told apart, whatever they hold (10_state.md R37). -/
theorem commandRule_same_of_not_keyed {v : Variant} {e f : Engine} (he : e.keyed = false) (hf : f.keyed = false)
    (i : Instr) (p : List Byte) : SameResult (commandRule v e i p) (commandRule v f i p) := by
  by_cases hi : ∀ rnd len, i ≠ .setkey rnd len
  · rw [commandRule_of_not_keyed hi he, commandRule_of_not_keyed hi hf]
    rfl
  · push Not at hi
    obtain ⟨rnd, len, rfl⟩ := hi
    exact setkey_same v rnd len e f p

/-! ### What a command answers, and what it writes (10_state.md R27, R33) -/

theorem exec_of_length {i : Instr} {s : State} (h : s.payload.length = payloadLen i) :
    exec i s = .next (s.finish (commandRule s.variant s.engine i s.payload)) := by
  rw [exec_eq_runCommand, runCommand_of_length _ h]

/-- A command that needs a key fails for want of one, or as its body does. -/
theorem requireKeyed_error {e : Engine} {body : CommandResult} {status : Status}
    (h : e.requireKeyed body = .error status) : status = .notKeyed ∨ body = .error status := by
  unfold Engine.requireKeyed at h
  split at h
  · exact .inr h
  · cases h; exact .inl rfl

/-- SETKEY has two errors (41_state_init.md R100). -/
theorem setkey_error {v : Variant} {rnd len : Nat} {e : Engine} {p : List Byte} {status : Status}
    (h : e.setkey v rnd len p = .error status) : status = .invalidKeyLength ∨ status = .invalidRounds := by
  unfold Engine.setkey at h
  split at h
  · cases h; exact .inl rfl
  · split at h
    · cases h; exact .inr rfl
    · cases h

/-- The errors of RESYNC (41_state_init.md R110). -/
theorem resync_error {v : Variant} {len : Nat} {e : Engine} {p : List Byte} {status : Status}
    (h : e.resync v len p = .error status) :
    status = .notKeyed ∨ status = .invalidIVLength ∨ status = .invalidSeek := by
  refine (requireKeyed_error h).imp_right fun h => ?_
  split at h
  · cases h; exact .inl rfl
  · split at h
    · cases h; exact .inr rfl
    · cases h

/-- The errors of a COMBINE (43_keystream_combiner.md R163). -/
theorem combine_error {v : Variant} {mode : CombineMode} {len : Nat} {e : Engine} {p : List Byte} {status : Status}
    (h : e.combine v mode len p = .error status) : status = .notKeyed ∨ status = .counterOverflow := by
  refine (requireKeyed_error h).imp_right fun h => ?_
  split at h
  · cases h; rfl
  · cases h

/-- The errors of SEEK (44_seek.md R200). -/
theorem seek_error {v : Variant} {e : Engine} {p : List Byte} {status : Status} (h : e.seek v p = .error status) :
    status = .notKeyed ∨ status = .invalidSeek := by
  refine (requireKeyed_error h).imp_right fun h => ?_
  split at h
  · cases h; rfl
  · cases h

/-- No rule raises `OK`. -/
theorem commandRule_error_ne_ok {v : Variant} {e : Engine} {i : Instr} {p : List Byte} {status : Status}
    (h : commandRule v e i p = .error status) : status ≠ .ok := by
  cases i with
  | setkey rnd len => rcases setkey_error h with rfl | rfl <;> decide
  | resync len => rcases resync_error h with rfl | rfl | rfl <;> decide
  | combineEnc len | combineDec len | combineGen len => rcases combine_error h with rfl | rfl <;> decide
  | seek => rcases seek_error h with rfl | rfl <;> decide

/-- All that an answer can stand for: an error, which leaves the block as it was, or the success of the command's own rule. -/
theorem exec_answer {i : Instr} {s t : State} {r : Response} (h : exec i s = .next t) (hr : t.response = some r) :
    (r.status ≠ .ok ∧ t.engine = s.engine ∧
      (r.status = .illegalCommand ∨ commandRule s.variant s.engine i s.payload = .error r.status)) ∨
    (r.status = .ok ∧ s.payload.length = payloadLen i ∧
      commandRule s.variant s.engine i s.payload = .ok (t.engine, r.out)) := by
  rcases exec_cases i s with ⟨-, hx⟩ | ⟨hlen, ⟨status, hrule, hx⟩ | ⟨e, out, hrule, hx⟩⟩
  all_goals
    rw [hx] at h
    cases h
    cases hr
  · exact .inl ⟨by decide, rfl, .inl rfl⟩
  · exact .inl ⟨commandRule_error_ne_ok hrule, rfl, .inr hrule⟩
  · exact .inr ⟨rfl, hlen, hrule⟩

/-- What SETKEY writes beside the constants, the key words and `ROUNDS`. -/
theorem setkey_writes {v : Variant} {rnd len : Nat} {e e' : Engine} {p out : List Byte}
    (h : e.setkey v rnd len p = .ok (e', out)) :
    (∀ j : Fin 16, 12 ≤ j.val → e'.w[j] = 0) ∧ e'.keyed = true ∧ e'.exh = false ∧ e'.pos = 64 ∧ e'.kb = e.kb := by
  obtain ⟨-, -, -, rfl⟩ := setkey_ok h
  exact ⟨initialWords_counter_nonce len p, rfl, rfl, rfl, rfl⟩

/-- The nonce words are no counter words (10_state.md R24, R25). -/
theorem ctr_setNonce (v : Variant) (e : Engine) (iv : List Byte) (q : Fin 65) :
    Engine.ctr v { e with w := nonceWords v e.w iv, pos := q } = e.ctr v := by
  cases v <;> simp [Engine.ctr, nonceWords]

/-- What RESYNC writes beside the nonce words. -/
theorem resync_writes {v : Variant} {len : Nat} {e e' : Engine} {p out : List Byte}
    (h : e.resync v len p = .ok (e', out)) :
    (∀ j : Fin 16, j.val < 12 → e'.w[j] = e.w[j]) ∧ e'.ctr v = (le64 (p.drop len) 0).toNat ∧
      e'.rounds = e.rounds ∧ e'.keyed = e.keyed ∧ e'.exh = false ∧ e'.kb = e.kb ∧ e'.pos = 64 := by
  obtain ⟨-, -, hfits, -, rfl⟩ := resync_ok h
  have hctr := (ctr_setNonce v (e.setCtr v (initialBlock len p)) p 64).trans (ctr_setCtr e hfits)
  exact ⟨resync_words_frame v e.w _ p, hctr, rfl, rfl, rfl, rfl, rfl⟩

theorem seek_writes {v : Variant} {e e' : Engine} {p out : List Byte} (h : e.seek v p = .ok (e', out)) :
    (∀ j : Fin 16, NotCounterWord v j → e'.w[j] = e.w[j]) ∧ e'.ctr v = (le64 p 0).toNat ∧
      e'.rounds = e.rounds ∧ e'.keyed = e.keyed ∧ e'.exh = false ∧ e'.kb = e.kb ∧ e'.pos = 64 := by
  obtain ⟨-, hfits, -, rfl⟩ := seek_ok h
  exact ⟨counterWords_frame v e.w _, ctr_setCtr e hfits, rfl, rfl, rfl, rfl, rfl⟩

/-- What the loop of a COMBINE that passes the check leaves, and when it sets `EXH`: the IETF counter reaches `2^32`
(43_keystream_combiner.md R166). -/
theorem combineLoop_writes {v : Variant} {bs : List (Option Byte)} {e e' : Engine}
    (hov : e.overflows v bs.length = false) (hend : e' = (Engine.combineLoop v bs e).2) :
    (∀ j : Fin 16, NotCounterWord v j → e'.w[j] = e.w[j]) ∧ e'.rounds = e.rounds ∧ e'.keyed = e.keyed ∧
      (v = .original → e'.exh = e.exh) ∧ (v = .ietf → e.exh = true → e'.exh = true) ∧
      (v = .ietf → e.exh = false → (e'.exh = true ↔ e.ctr .ietf + e.blocksNeeded bs.length = 2 ^ 32)) := by
  subst hend
  refine ⟨combineLoop_frame v bs e, combineLoop_rounds v bs e, combineLoop_keyed v bs e, ?_,
    fun _ => combineLoop_exh_of_exh hov, ?_⟩
  · rintro rfl
    exact combineLoop_exh_original bs e
  · rintro rfl hx
    rw [exh_iff_ctr_ietf (combineLoop_exhLegal hov (exhLegal_of_not_exh _ hx)), combineLoop_ctr_ietf hov]

/-- The three COMBINE commands are the loop over `len` inputs (43_keystream_combiner.md R160 to R163). -/
theorem combineOp_ok_loop {v : Variant} {op : CombineOp} {len : Nat} {e e' : Engine} {p out : List Byte}
    (h : commandRule v e (op.instr len) p = .ok (e', out)) (hp : p.length = payloadLen (op.instr len)) :
    e.keyed = true ∧ ∃ bs : List (Option Byte), bs.length = len ∧ e.overflows v bs.length = false ∧
      e' = (Engine.combineLoop v bs e).2 := by
  cases op with
  | enc | dec => exact combine_ok_loop h (fun _ => hp)
  | gen => exact combine_ok_loop h (fun hm => nomatch hm)

theorem combineOp_ok_keyed {v : Variant} {op : CombineOp} {len : Nat} {e e' : Engine} {p out : List Byte}
    (h : commandRule v e (op.instr len) p = .ok (e', out)) (hp : p.length = payloadLen (op.instr len)) :
    e'.keyed = true ∧ e.keyed = true := by
  obtain ⟨hk, bs, -, -, rfl⟩ := combineOp_ok_loop h hp
  exact ⟨(combineLoop_keyed v bs e).trans hk, hk⟩

/-- Every command that succeeds leaves the block keyed, and every one but SETKEY needs it keyed (10_state.md R27). -/
theorem commandRule_ok_keyed {v : Variant} {e e' : Engine} {i : Instr} {p out : List Byte}
    (h : commandRule v e i p = .ok (e', out)) (hp : p.length = payloadLen i) :
    e'.keyed = true ∧ ((∀ rnd len, i ≠ .setkey rnd len) → e.keyed = true) := by
  cases i with
  | setkey rnd len =>
    obtain ⟨-, -, -, rfl⟩ := setkey_ok h
    exact ⟨rfl, fun hi => absurd rfl (hi rnd len)⟩
  | resync len =>
    obtain ⟨hk, -, -, -, rfl⟩ := resync_ok h
    exact ⟨hk, fun _ => hk⟩
  | combineEnc len => exact (combineOp_ok_keyed (op := .enc) h hp).imp_right fun hk _ => hk
  | combineDec len => exact (combineOp_ok_keyed (op := .dec) h hp).imp_right fun hk _ => hk
  | combineGen len => exact (combineOp_ok_keyed (op := .gen) h hp).imp_right fun hk _ => hk
  | seek =>
    obtain ⟨hk, -, -, rfl⟩ := seek_ok h
    exact ⟨hk, fun _ => hk⟩

end Sys2Proof.Machine

/-! ### The obligations -/

namespace Sys2Proof.Proofs

open Sys2Proof.Machine

/-- Settles O14, by the invariant of the block after reset. -/
theorem resetMeetsTheInvariant : Obligations.ResetMeetsTheInvariant := fun v => ⟨reset_inv v, rfl⟩

/-- Settles O15: a step is a transaction, whose rule keeps the invariant of the block, or a reset, which establishes it. -/
theorem stepKeepsTheInvariant : Obligations.StepKeepsTheInvariant := by
  intro s t hi hstep
  rcases step_next hstep with ⟨hdr, p, rest, rfl⟩ | ⟨k, rest, rfl⟩
  · refine ⟨⟨?_, finish_payload _ _⟩, finish_variant _ _⟩
    rw [finish_variant]
    exact transactRule_keeps_inv (s := { s with input := rest }) hdr p hi.engine
  · exact ⟨⟨reset_inv s.variant, rfl⟩, rfl⟩

/-- Settles O13: without a key only SETKEY succeeds, and it reads nothing of the block. -/
theorem resetValuesAreUnobservable : Obligations.ResetValuesAreUnobservable := by
  refine ⟨fun v => ⟨fun j => Vector.getElem_replicate j.isLt, rfl, rfl, rfl,
    fun j => Vector.getElem_replicate j.isLt, rfl⟩, fun hdr p s t hv hs ht => ?_⟩
  have same : SameResult (transactRule s.variant s.engine hdr p) (transactRule t.variant t.engine hdr p) := by
    rw [hv]
    exact transactRule_same (fun i => commandRule_same_of_not_keyed hs ht i p) hdr
  exact ⟨_, _, transact_eq_finish hdr p s, transact_eq_finish hdr p t, finish_same_or_unchanged same⟩

/-- Settles O41: every rule reads unconsumed bytes only, and a refill writes the whole buffer. -/
theorem consumedBytesAreUnobservable : Obligations.ConsumedBytesAreUnobservable := by
  intro hdr p s t hv h
  have same : SameResult (transactRule s.variant s.engine hdr p) (transactRule t.variant t.engine hdr p) := by
    rw [hv]
    exact transactRule_same (fun i => commandRule_same h i p) hdr
  exact ⟨_, _, transact_eq_finish hdr p s, transact_eq_finish hdr p t, finish_same h same⟩

/-- Settles O42: what the block fetches comes from its input stream, and the transaction's rule reads the variant and the block
beside it. -/
theorem pastResponsesAreUnobservable : Obligations.PastResponsesAreUnobservable := by
  intro s t s' hv he hin hstep
  unfold step at hstep ⊢
  rw [← hin]
  cases hf : fetch s.input with
  | command hdr p rest =>
    simp only [hf, transact_eq_finish] at hstep ⊢
    cases hstep
    have hrule : transactRule t.variant t.engine hdr p = transactRule s.variant s.engine hdr p := by rw [hv, he]
    obtain ⟨hengine, hresponse⟩ := finish_congr (s := { t with input := rest }) (t := { s with input := rest }) he.symm
      (transactRule s.variant s.engine hdr p)
    refine ⟨_, rfl, ?_⟩
    rw [hrule]
    exact ⟨by simp [hv], hengine, by simp, hresponse, by simp⟩
  | resetIdle k rest | resetMidCommand rest =>
    simp only [hf] at hstep ⊢
    cases hstep
    exact ⟨_, rfl, hv.symm, rfl, rfl, rfl, rfl⟩
  | noHeader | noPayload => simp [hf] at hstep

/-- Settles O21: an error changes nothing, a success leaves the block keyed, and only SETKEY succeeds without a key. -/
theorem keyedOnlyBySetkey : Obligations.KeyedOnlyBySetkey := by
  refine ⟨fun _ => rfl, fun i s t r hx hr => ?_, fun i s hlen hi hk => ?_⟩
  · rcases exec_answer hx hr with ⟨hne, hsame, herr⟩ | ⟨hok, hlen, hrule⟩
    · refine ⟨fun hk => by rw [hsame, hk], fun _ => by rw [hsame], ?_⟩
      rintro rnd len rfl
      refine ⟨fun hnk => ?_, fun hok => absurd hok hne⟩
      rw [hnk] at herr
      rcases herr with h | h
      · cases h
      · rcases setkey_error h with h | h <;> cases h
    · obtain ⟨hk', hk⟩ := commandRule_ok_keyed hrule hlen
      refine ⟨fun _ => hk', fun hi => hk'.trans (hk hi).symm, fun rnd len _ => ⟨?_, fun _ => hk'⟩⟩
      rw [hok]
      decide
  · rw [exec_of_length hlen, commandRule_of_not_keyed hi hk, finish_error]

/-- Settles O22: an error changes nothing, and each rule that succeeds writes the elements of its column. -/
theorem commandsWriteOnlyTheirElements : Obligations.CommandsWriteOnlyTheirElements := by
  intro i s t r hx hr
  rcases exec_answer hx hr with ⟨hne, hsame, -⟩ | ⟨hok, hlen, hrule⟩
  · exact ⟨fun _ => hsame, fun h => absurd h hne⟩
  refine ⟨fun h => absurd hok h, fun _ => ⟨?_, ?_, ?_, ?_⟩⟩
  · rintro rnd len rfl
    exact setkey_writes hrule
  · rintro len rfl
    exact resync_writes hrule
  · rintro op len rfl
    obtain ⟨-, bs, rfl, hov, hend⟩ := combineOp_ok_loop hrule hlen
    exact combineLoop_writes hov hend
  · rintro rfl
    exact seek_writes hrule

end Sys2Proof.Proofs
end

section
/-! PROOFS. The command encoding: fields, decoder, encoder and stream, the answers of R77 to R82, and the assembler
(30_encoding.md). -/

namespace Sys2Proof

open Sys2Proof.Machine

/-! ### The header's fields as numbers (30_encoding.md R72, R73) -/

theorem opcField_eq (hdr : Word) : opcField hdr = hdr.toNat % 16 := BitVec.extractLsb'_toNat 0 4 hdr

theorem subField_eq (hdr : Word) : subField hdr = hdr.toNat / 16 % 16 := by
  rw [subField, BitVec.extractLsb'_toNat, Nat.shiftRight_eq_div_pow]

theorem rndField_eq (hdr : Word) : rndField hdr = hdr.toNat / 256 % 256 := by
  rw [rndField, BitVec.extractLsb'_toNat, Nat.shiftRight_eq_div_pow]

/-- `LEN` is the top field, so no reduction is left of it. -/
theorem lenField_eq (hdr : Word) : lenField hdr = hdr.toNat / 65536 := by
  rw [lenField, BitVec.extractLsb'_toNat, Nat.shiftRight_eq_div_pow]
  have := hdr.isLt
  omega

/-- The header's four fields are these numbers (30_encoding.md R73). -/
def HasFields (hdr : Word) (opc sub rnd len : Nat) : Prop :=
  hdr.toNat % 16 = opc ∧ hdr.toNat / 16 % 16 = sub ∧ hdr.toNat / 256 % 256 = rnd ∧ hdr.toNat / 65536 = len

theorem hasFields_header {opc sub rnd len : Nat} (ho : opc < 16) (hs : sub < 16) (hr : rnd < 256) (hl : len < 65536) :
    HasFields (header opc sub rnd len) opc sub rnd len := by
  simp only [HasFields, header, BitVec.toNat_ofNat]
  omega

theorem header_of_hasFields {hdr : Word} {opc sub rnd len : Nat} (h : HasFields hdr opc sub rnd len) :
    header opc sub rnd len = hdr := by
  obtain ⟨ho, hs, hr, hl⟩ := h
  apply BitVec.eq_of_toNat_eq
  simp only [header, BitVec.toNat_ofNat]
  omega

theorem rndFits_of_hasFields {hdr : Word} {opc sub rnd len : Nat} (h : HasFields hdr opc sub rnd len) :
    rndFits rnd = true := by
  obtain ⟨-, -, hr, -⟩ := h
  exact decide_eq_true (by omega)

theorem lenFits_of_hasFields {hdr : Word} {opc sub rnd len : Nat} (h : HasFields hdr opc sub rnd len) :
    lenFits len = true := by
  obtain ⟨-, -, -, hl⟩ := h
  have := hdr.isLt
  exact decide_eq_true (by omega)

/-! ### The decoder (30_encoding.md R76) -/

/-- The row of the encoding table that a header must lie in to be the command's header (30_encoding.md R74). -/
def InRow (hdr : Word) : Instr → Prop
  | .setkey rnd len => HasFields hdr 1 0 rnd len
  | .resync len => HasFields hdr 2 0 0 len
  | .combineEnc len => HasFields hdr 3 0 0 len
  | .combineDec len => HasFields hdr 3 1 0 len
  | .combineGen len => HasFields hdr 3 2 0 len
  | .seek => HasFields hdr 4 0 0 0

/-- A header is accepted at the end of a path of `Decode` on which each of its fields was compared. -/
theorem inRow_of_decode {hdr : Word} {i : Instr} (h : decode hdr = some i) : InRow hdr i := by
  unfold decode at h
  split at h
  · next i' hi =>
    cases h
    simp only [decodeHeader, decodeCombine, opcField_eq, subField_eq, rndField_eq, lenField_eq] at hi
    split_ifs at hi <;> cases hi <;> simp only [InRow, HasFields, and_true] <;> omega
  · cases h

theorem decode_of_inRow {hdr : Word} {i : Instr} (h : InRow hdr i) : decode hdr = some i := by
  cases i with
  | setkey rnd len | resync len | combineEnc len | combineDec len | combineGen len | seek =>
    obtain ⟨ho, hs, hr, hl⟩ := h
    simp [decode, decodeHeader, decodeCombine, opcField_eq, subField_eq, rndField_eq, lenField_eq, ho, hs, hr, hl]

/-- `Decode` is the encoding table read backwards. -/
theorem decode_eq_some_iff {hdr : Word} {i : Instr} : decode hdr = some i ↔ InRow hdr i :=
  ⟨inRow_of_decode, decode_of_inRow⟩

/-- The classes of R77 are the headers on which `Decode` ends at an error. -/
theorem decode_eq_none_iff (hdr : Word) :
    decode hdr = none ↔
      (hdr.toNat % 16 = 0 ∨ 5 ≤ hdr.toNat % 16) ∨
      (hdr.toNat % 16 = 3 ∧ 3 ≤ hdr.toNat / 16 % 16) ∨
      ((hdr.toNat % 16 = 1 ∨ hdr.toNat % 16 = 2 ∨ hdr.toNat % 16 = 4) ∧ hdr.toNat / 16 % 16 ≠ 0) ∨
      ((hdr.toNat % 16 = 2 ∨ hdr.toNat % 16 = 3 ∨ hdr.toNat % 16 = 4) ∧ hdr.toNat / 256 % 256 ≠ 0) ∨
      (hdr.toNat % 16 = 4 ∧ hdr.toNat / 65536 ≠ 0) := by
  simp only [decode, decodeHeader, decodeCombine, opcField_eq, subField_eq, rndField_eq, lenField_eq]
  split_ifs <;> simp only [true_iff, false_iff] <;> omega

theorem wf_of_inRow {hdr : Word} {i : Instr} (h : InRow hdr i) : i.wf = true := by
  cases i with
  | setkey rnd len => exact Bool.and_eq_true_iff.2 ⟨rndFits_of_hasFields h, lenFits_of_hasFields h⟩
  | resync len | combineEnc len | combineDec len | combineGen len => exact lenFits_of_hasFields h
  | seek => rfl

theorem encode_of_inRow {hdr : Word} {i : Instr} (h : InRow hdr i) : encode i = hdr := by
  cases i <;> exact header_of_hasFields h

theorem encode_inRow {i : Instr} (h : i.wf = true) : InRow (encode i) i := by
  cases i with
  | setkey rnd len =>
    obtain ⟨hr, hl⟩ := Bool.and_eq_true_iff.1 h
    exact hasFields_header (by decide) (by decide) (of_decide_eq_true hr) (of_decide_eq_true hl)
  | resync len | combineEnc len | combineDec len | combineGen len =>
    exact hasFields_header (by decide) (by decide) (by decide) (of_decide_eq_true h)
  | seek => exact hasFields_header (by decide) (by decide) (by decide) (by decide)

theorem decode_encode {i : Instr} (h : i.wf = true) : decode (encode i) = some i := decode_of_inRow (encode_inRow h)

/-! ### The opcode table (30_encoding.md R74) -/

/-- A row of mask `0x000000FF` fixes opcode and `SUB`. -/
theorem and_low_byte_eq_iff (hdr m : Word) :
    hdr &&& 0x000000FF = m ↔ ∃ rnd len, HasFields hdr (m.toNat % 16) (m.toNat / 16) rnd len := by
  rw [← BitVec.toNat_inj, BitVec.toNat_and]
  refine (Eq.congr_left (Laws.TableRow.and_low_byte hdr.toNat)).trans ?_
  simp only [HasFields, exists_and_left, exists_eq', and_true]
  omega

/-- A row of mask `0x0000FFFF` fixes opcode, `SUB` and `RND`. -/
theorem and_low_half_eq_iff (hdr m : Word) :
    hdr &&& 0x0000FFFF = m ↔ ∃ len, HasFields hdr (m.toNat % 16) (m.toNat / 16 % 16) (m.toNat / 256) len := by
  rw [← BitVec.toNat_inj, BitVec.toNat_and]
  refine (Eq.congr_left (Laws.TableRow.and_low_half hdr.toNat)).trans ?_
  simp only [HasFields, exists_and_left, exists_eq', and_true]
  omega

/-- A row of mask `0xFFFFFFFF` fixes the whole header. -/
theorem and_word_eq_iff (hdr m : Word) :
    hdr &&& 0xFFFFFFFF = m ↔
      HasFields hdr (m.toNat % 16) (m.toNat / 16 % 16) (m.toNat / 256 % 256) (m.toNat / 65536) := by
  have hmask : hdr &&& 0xFFFFFFFF = hdr := BitVec.and_allOnes
  rw [hmask, ← BitVec.toNat_inj, HasFields]
  omega

/-! ### A command on the stream (30_encoding.md R71, R80) -/

theorem decodeStream_of_header {hdr : Word} {i : Instr} (h : decode hdr = some i) {p : List Byte} (rest : List Byte)
    (hp : p.length = payloadLen i) : decodeStream (bytesLe32 hdr ++ (p ++ rest)) = some (i, p, rest) := by
  have hlong : ¬ (bytesLe32 hdr ++ (p ++ rest)).length < 4 := by simp
  have hdrop : (bytesLe32 hdr ++ (p ++ rest)).drop 4 = p ++ rest := rfl
  simp [decodeStream, le32_bytesLe32_append, h, hdrop, ← hp]

end Sys2Proof

namespace Sys2Proof.Machine

/-! ### Reading a command (30_encoding.md R80 to R82) -/

theorem payloadToRead_of_illegal {hdr : Word} (h : decode hdr = none) : payloadToRead hdr = 0 := by
  simp [payloadToRead, h]

/-- An illegal header is a command of four bytes (30_encoding.md R81). -/
theorem step_of_illegal {hdr : Word} {rest : List HostEvent} {s : State} (hd : decode hdr = none)
    (hs : s.input = (bytesLe32 hdr).map .byte ++ rest) :
    step s = .next (State.respond { s with input := rest } ⟨.illegalCommand, []⟩ s.engine) := by
  have hread : ([] : List Byte).length = payloadToRead hdr := (payloadToRead_of_illegal hd).symm
  have hs' : s.input = (bytesLe32 hdr ++ []).map .byte ++ rest := by rw [List.append_nil, hs]
  rw [step_of_command hread hs', transact_eq_finish, transactRule_of_illegal hd, finish_error]

/-- A command that was read has the payload that its header asks for. -/
theorem fetchPayload_eq_command {hdr hdr' : Word} {p : List Byte} {ev rest : List HostEvent}
    (h : fetchPayload hdr ev = .command hdr' p rest) : p.length = payloadToRead hdr' := by
  unfold fetchPayload at h
  split at h
  · next ht =>
    cases h
    exact (takeBytes_eq_bytes ht).1
  · cases h
  · cases h

theorem fetch_eq_command {hdr : Word} {p : List Byte} {ev rest : List HostEvent}
    (h : fetch ev = .command hdr p rest) : p.length = payloadToRead hdr := by
  unfold fetch at h
  split at h
  · cases h
  · split at h
    · exact fetchPayload_eq_command h
    · cases h
    · cases h

/-! ### Which command raises which status (30_encoding.md R78, R79) -/

/-- When the rule of a command on payload `p` can raise a status: the column "raised by" of R78. -/
def MayRaise (v : Variant) (e : Engine) (i : Instr) (p : List Byte) : Status → Prop
  | .ok => False
  | .invalidKeyLength => ∃ rnd len, i = .setkey rnd len
  | .invalidIVLength => ∃ len, i = .resync len
  | .invalidRounds => v = .original ∧ ∃ rnd len, i = .setkey rnd len
  | .invalidSeek => i = .seek ∨ ∃ len, i = .resync len ∧ 2 ^ ctrBits v ≤ (le64 (p.drop len) 0).toNat
  | .counterOverflow => v = .ietf ∧ ∃ op len, i = CombineOp.instr op len
  | .notKeyed => e.keyed = false ∧ (i = .seek ∨ (∃ len, i = .resync len) ∨ ∃ op len, i = CombineOp.instr op len)
  | .illegalCommand => False

/-- A command that needs a key fails on an unkeyed block, or as its body does. -/
theorem requireKeyed_mayRaise {v : Variant} {e : Engine} {i : Instr} {p : List Byte} {body : CommandResult}
    {status : Status} (h : e.requireKeyed body = .error status)
    (hi : i = .seek ∨ (∃ len, i = .resync len) ∨ ∃ op len, i = CombineOp.instr op len)
    (hbody : body = .error status → MayRaise v e i p status) : MayRaise v e i p status := by
  cases hk : e.keyed with
  | true => exact hbody (by rwa [requireKeyed_of_keyed body hk] at h)
  | false =>
    rw [requireKeyed_of_not_keyed body hk] at h
    cases h
    exact ⟨hk, hi⟩

theorem setkey_mayRaise {v : Variant} {rnd len : Nat} {e : Engine} {p : List Byte} {status : Status}
    (h : e.setkey v rnd len p = .error status) : MayRaise v e (.setkey rnd len) p status := by
  unfold Engine.setkey at h
  split at h
  · cases h; exact ⟨rnd, len, rfl⟩
  · split at h
    · next hrnd =>
      cases h
      cases v with
      | original => exact ⟨rfl, rnd, len, rfl⟩
      | ietf => simp [roundsOk] at hrnd
    · cases h

theorem resync_mayRaise {v : Variant} {len : Nat} {e : Engine} {p : List Byte} {status : Status}
    (h : e.resync v len p = .error status) : MayRaise v e (.resync len) p status := by
  refine requireKeyed_mayRaise h (.inr (.inl ⟨len, rfl⟩)) fun hbody => ?_
  split at hbody
  · cases hbody; exact ⟨len, rfl⟩
  · split at hbody
    · next hfits =>
      cases hbody
      have hnot : ¬ initialBlock len p < 2 ^ ctrBits v := fun hlt => by simp [counterFits, hlt] at hfits
      exact .inr ⟨len, rfl, Nat.le_of_not_lt hnot⟩
    · cases hbody

theorem seek_mayRaise {v : Variant} {e : Engine} {p : List Byte} {status : Status} (h : e.seek v p = .error status) :
    MayRaise v e .seek p status := by
  refine requireKeyed_mayRaise h (.inl rfl) fun hbody => ?_
  split at hbody
  · cases hbody; exact .inl rfl
  · cases hbody

theorem combine_mayRaise {v : Variant} {mode : CombineMode} (op : CombineOp) {len : Nat} {e : Engine} {p : List Byte}
    {status : Status} (h : e.combine v mode len p = .error status) : MayRaise v e (op.instr len) p status := by
  refine requireKeyed_mayRaise h (.inr (.inr ⟨op, len, rfl⟩)) fun hbody => ?_
  split at hbody
  · next hov =>
    cases hbody
    cases v with
    | original => simp [Engine.overflows] at hov
    | ietf => exact ⟨rfl, op, len, rfl⟩
  · cases hbody

theorem commandRule_mayRaise {v : Variant} {e : Engine} {i : Instr} {p : List Byte} {status : Status}
    (h : commandRule v e i p = .error status) : MayRaise v e i p status := by
  cases i with
  | setkey rnd len => exact setkey_mayRaise h
  | resync len => exact resync_mayRaise h
  | combineEnc len => exact combine_mayRaise .enc h
  | combineDec len => exact combine_mayRaise .dec h
  | combineGen len => exact combine_mayRaise .gen h
  | seek => exact seek_mayRaise h

/-- How many bytes a command that succeeds puts out (30_encoding.md R79). -/
def outLength : Instr → Nat
  | .combineEnc len | .combineDec len | .combineGen len => len
  | .setkey _ _ | .resync _ | .seek => 0

theorem combine_ok_length {v : Variant} {mode : CombineMode} {len : Nat} {e e' : Engine} {p out : List Byte}
    (h : e.combine v mode len p = .ok (e', out)) (hp : mode = .xor → p.length = len) : out.length = len := by
  obtain ⟨-, -, hloop⟩ := combine_ok h
  calc out.length = (Engine.combineLoop v (combineInputs mode len p) e).1.length := by rw [hloop]
    _ = (combineInputs mode len p).length := combineLoop_length v _ e
    _ = len := combineInputs_length hp

theorem commandRule_ok_length {v : Variant} {e e' : Engine} {i : Instr} {p out : List Byte}
    (h : commandRule v e i p = .ok (e', out)) (hp : p.length = payloadLen i) : out.length = outLength i := by
  cases i with
  | setkey rnd len =>
    obtain ⟨-, -, rfl, -⟩ := setkey_ok h
    rfl
  | resync len =>
    obtain ⟨-, -, -, rfl, -⟩ := resync_ok h
    rfl
  | combineEnc len | combineDec len => exact combine_ok_length h fun _ => hp
  | combineGen len => exact combine_ok_length h fun hm => nomatch hm
  | seek =>
    obtain ⟨-, -, rfl, -⟩ := seek_ok h
    rfl

theorem outLength_combine (op : CombineOp) (len : Nat) : outLength (op.instr len) = len := by cases op <;> rfl

theorem outLength_of_not_combine {i : Instr} (h : ∀ op len, i ≠ CombineOp.instr op len) : outLength i = 0 := by
  cases i with
  | setkey _ _ | resync _ | seek => rfl
  | combineEnc len => exact absurd rfl (h .enc len)
  | combineDec len => exact absurd rfl (h .dec len)
  | combineGen len => exact absurd rfl (h .gen len)

/-- All that the answer of a transaction can stand for: no such command, an error its rule may raise, or its success. -/
theorem transact_answer {hdr : Word} {p : List Byte} {s t : State} {r : Response} (h : transact hdr p s = .next t)
    (hr : t.response = some r) :
    (r = ⟨.illegalCommand, []⟩ ∧ ∀ i, decode hdr = some i → p.length ≠ payloadLen i) ∨
    ∃ i, decode hdr = some i ∧ p.length = payloadLen i ∧
      ((r.out = [] ∧ MayRaise s.variant s.engine i p r.status) ∨ (r.status = .ok ∧ r.out.length = outLength i)) := by
  rw [transact_eq_finish] at h
  cases h
  cases hd : decode hdr with
  | none =>
    rw [transactRule_of_illegal hd] at hr
    cases hr
    exact .inl ⟨rfl, fun i hi => nomatch hi⟩
  | some i =>
    by_cases hp : p.length = payloadLen i
    · rw [transactRule_of_length hd hp] at hr
      refine .inr ⟨i, rfl, hp, ?_⟩
      cases hrule : commandRule s.variant s.engine i p with
      | error status =>
        rw [hrule] at hr
        cases hr
        exact .inl ⟨rfl, commandRule_mayRaise hrule⟩
      | ok result =>
        rw [hrule] at hr
        cases hr
        exact .inr ⟨rfl, commandRule_ok_length hrule hp⟩
    · rw [transactRule_of_length_ne hd hp] at hr
      cases hr
      exact .inl ⟨rfl, fun j hj => by cases hj; exact hp⟩

/-! ### The assembler (30_encoding.md R83, R84) -/

/-- A command with a legal header and the payload that the header asks for. -/
def AsmComplete (c : AsmCommand) : Prop := ∃ i, decode c.1 = some i ∧ c.2.length = payloadLen i

theorem asmComplete_encode {i : Instr} {p : List Byte} (hwf : i.wf = true) (hp : p.length = payloadLen i) :
    AsmComplete (encode i, p) := ⟨i, decode_encode hwf, hp⟩

theorem lenFits_of_le_maxLen {n : Nat} (h : n ≤ maxLen) : lenFits n = true :=
  decide_eq_true (Nat.lt_succ_of_le h)

/-- The six commands assemble, where their check holds, to one command. -/
theorem asmComplete_of_guard {guard : Prop} [Decidable guard] {i : Instr} {p : List Byte} {cmds : List AsmCommand}
    (h : (if guard then some [(encode i, p)] else none) = some cmds)
    (hi : guard → i.wf = true ∧ p.length = payloadLen i) : ∀ c ∈ cmds, AsmComplete c := by
  split at h
  · next hg =>
    cases h
    obtain ⟨hwf, hp⟩ := hi hg
    exact List.forall_mem_singleton.2 (asmComplete_encode hwf hp)
  · cases h

theorem asmSetkey_complete {rounds : Nat} {key : List Byte} {cmds : List AsmCommand}
    (h : asmSetkey rounds key = some cmds) : ∀ c ∈ cmds, AsmComplete c :=
  asmComplete_of_guard h fun ⟨hr, hl⟩ =>
    ⟨Bool.and_eq_true_iff.2 ⟨decide_eq_true (Nat.lt_succ_of_le hr), lenFits_of_le_maxLen hl⟩, rfl⟩

theorem asmResync_complete {iv : List Byte} {n : Nat} {cmds : List AsmCommand}
    (h : asmResync iv n = some cmds) : ∀ c ∈ cmds, AsmComplete c :=
  asmComplete_of_guard h fun ⟨hl, _⟩ => ⟨lenFits_of_le_maxLen hl, List.length_append⟩

theorem asmEnc_complete {data : List Byte} {cmds : List AsmCommand} (h : asmEnc data = some cmds) :
    ∀ c ∈ cmds, AsmComplete c := asmComplete_of_guard h fun hl => ⟨lenFits_of_le_maxLen hl, rfl⟩

theorem asmDec_complete {data : List Byte} {cmds : List AsmCommand} (h : asmDec data = some cmds) :
    ∀ c ∈ cmds, AsmComplete c := asmComplete_of_guard h fun hl => ⟨lenFits_of_le_maxLen hl, rfl⟩

theorem asmGen_complete {count : Nat} {cmds : List AsmCommand} (h : asmGen count = some cmds) :
    ∀ c ∈ cmds, AsmComplete c := asmComplete_of_guard h fun hl => ⟨lenFits_of_le_maxLen hl, rfl⟩

theorem asmSeek_complete {n : Nat} {cmds : List AsmCommand} (h : asmSeek n = some cmds) :
    ∀ c ∈ cmds, AsmComplete c := asmComplete_of_guard h fun _ => ⟨rfl, rfl⟩

theorem longPieces_nil (n : Nat) : longPieces n [] = [] := by cases n <;> rfl

theorem longPieces_succ (n : Nat) {data : List Byte} (h : data ≠ []) :
    longPieces (n + 1) data = data.take maxLen :: longPieces n (data.drop maxLen) := by
  simp [longPieces, h]

/-- The pieces joined are the data, when as many pieces as bytes are allowed. -/
theorem longPieces_flatten {n : Nat} {data : List Byte} (h : data.length ≤ n) : (longPieces n data).flatten = data := by
  induction n generalizing data with
  | zero => rw [List.length_eq_zero_iff.1 (Nat.le_zero.1 h), longPieces_nil, List.flatten_nil]
  | succ n ih =>
    by_cases hd : data = []
    · rw [hd, longPieces_nil, List.flatten_nil]
    · have hrest : (data.drop maxLen).length ≤ n := by rw [List.length_drop, maxLen]; omega
      rw [longPieces_succ n hd, List.flatten_cons, ih hrest, List.take_append_drop]

theorem longPieces_bounds {n : Nat} {data piece : List Byte} (h : piece ∈ longPieces n data) :
    piece ≠ [] ∧ piece.length ≤ maxLen := by
  induction n generalizing data with
  | zero => cases h
  | succ n ih =>
    by_cases hd : data = []
    · simp [hd, longPieces_nil] at h
    · rw [longPieces_succ n hd, List.mem_cons] at h
      rcases h with rfl | h
      · exact ⟨by simp [hd, maxLen], List.length_take_le maxLen data⟩
      · exact ih h

/-- A piece that another one follows is full, since the data went on after it. -/
theorem longPieces_dropLast_full {n : Nat} {data piece : List Byte} (h : piece ∈ (longPieces n data).dropLast) :
    piece.length = maxLen := by
  induction n generalizing data with
  | zero => cases h
  | succ n ih =>
    by_cases hd : data = []
    · simp [hd, longPieces_nil] at h
    · rw [longPieces_succ n hd] at h
      by_cases hend : longPieces n (data.drop maxLen) = []
      · simp [hend] at h
      · rw [List.dropLast_cons_of_ne_nil hend, List.mem_cons] at h
        rcases h with rfl | h
        · have hmore : data.drop maxLen ≠ [] := fun hnil => hend (by rw [hnil, longPieces_nil])
          have hlt := List.length_pos_iff.2 hmore
          rw [List.length_drop] at hlt
          exact List.length_take_of_le (by omega)
        · exact ih h

/-- The COMBINE.ENC command of one piece. -/
def encCommand (piece : List Byte) : AsmCommand := (encode (.combineEnc piece.length), piece)

theorem asmEncryptLong_eq (data : List Byte) :
    asmEncryptLong data = some ((longPieces data.length data).map encCommand) := rfl

theorem decode_encCommand {piece : List Byte} (h : piece.length ≤ maxLen) :
    decode (encCommand piece).1 = some (.combineEnc piece.length) := decode_encode (lenFits_of_le_maxLen h)

theorem asmEncryptLong_complete {data : List Byte} {cmds : List AsmCommand} (h : asmEncryptLong data = some cmds) :
    ∀ c ∈ cmds, AsmComplete c := by
  rw [asmEncryptLong_eq] at h
  cases h
  refine List.forall_mem_map.2 fun piece hp => ?_
  exact ⟨_, decode_encCommand (longPieces_bounds hp).2, rfl⟩

end Sys2Proof.Machine

namespace Sys2Proof.Proofs

open Sys2Proof Sys2Proof.Machine

/-- Settles O4: the header of a well-formed instruction lies in its row, and what lies in a row decodes to it. -/
theorem decodeOfEncode : Obligations.DecodeOfEncode := fun _ => decode_encode

/-- Settles O5: what decodes lies in its row, whose fields are in range and make up the header. -/
theorem encodeOfDecode : Obligations.EncodeOfDecode := fun _ _ h =>
  have hrow := inRow_of_decode h
  ⟨wf_of_inRow hrow, encode_of_inRow hrow⟩

/-- Settles O1: each test of the chain is a row of the table, and a header that fails all six lies in none. -/
theorem decodeFollowsTheFieldChain : Obligations.DecodeFollowsTheFieldChain := by
  intro hdr
  split_ifs with hSetkey hResync hEnc hDec hGen hSeek
  case neg =>
    refine Option.eq_none_iff_forall_ne_some.2 fun i hi => ?_
    have hrow := inRow_of_decode hi
    cases i <;> obtain ⟨ho, hs, hr, hl⟩ := hrow
    case setkey => exact hSetkey ⟨ho, hs⟩
    case resync => exact hResync ⟨ho, hs, hr⟩
    case combineEnc => exact hEnc ⟨ho, hs, hr⟩
    case combineDec => exact hDec ⟨ho, hs, hr⟩
    case combineGen => exact hGen ⟨ho, hs, hr⟩
    case seek => exact hSeek ⟨ho, hs, hr, hl⟩
  all_goals
    apply decode_of_inRow
    simp only [InRow, HasFields, and_true]
    omega

/-- Settles O2: the classes are the headers on which the chain of R76 falls through. -/
theorem illegalHeadersAreTheListedClasses : Obligations.IllegalHeadersAreTheListedClasses := by
  refine fun hdr => ⟨decode_eq_none_iff hdr, fun p s h => ?_⟩
  rw [transact_eq_finish, transactRule_of_illegal h, finish_error]

/-- Settles O3: a mask keeps the fields that the row fixes. -/
theorem opcodeTableRowsSelectTheirCommands : Obligations.OpcodeTableRowsSelectTheirCommands := by
  intro hdr
  simp only [decode_eq_some_iff, InRow]
  exact ⟨and_low_byte_eq_iff hdr 0x01, and_low_half_eq_iff hdr 0x02, and_low_half_eq_iff hdr 0x03,
    and_low_half_eq_iff hdr 0x13, and_low_half_eq_iff hdr 0x23, and_word_eq_iff hdr 0x04⟩

/-- Settles O6: the header is read back from its four bytes, and the payload from the length that it gives. -/
theorem streamDecodeOfCommandBytes : Obligations.StreamDecodeOfCommandBytes := by
  intro i p rest hwf hp
  rw [commandBytes, List.append_assoc, decodeStream_of_header (decode_encode hwf) rest hp]

/-- Settles O9: an illegal header is a whole command, and so is a legal one with its payload, whose rule raises no
`IllegalCommand`. -/
theorem framingOfRejectedCommands : Obligations.FramingOfRejectedCommands := by
  refine ⟨fun hdr rest s hd hin => ?_, fun hdr i p rest s hd hp hin => ?_⟩
  · exact ⟨_, step_of_illegal hd hin, rfl, rfl, rfl⟩
  · have hread : p.length = payloadToRead hdr := hp.trans (payloadToRead_of_decode hd).symm
    obtain ⟨r, e, hx⟩ := transact_responds hdr p { s with input := rest }
    refine ⟨State.respond { s with input := rest } r e, r, (step_of_command hread hin).trans hx, rfl, fun hst => ?_, rfl⟩
    rcases transact_answer hx rfl with ⟨-, hne⟩ | ⟨i', -, -, ⟨-, hraise⟩ | ⟨hok, -⟩⟩
    · exact hne i hd hp
    · rwa [hst] at hraise
    · rw [hst] at hok; cases hok

/-- Settles O10: the length check comes before the command's rule, and the header fixes how much is read. -/
theorem wrongPayloadLengthIsIllegal : Obligations.WrongPayloadLengthIsIllegal := by
  refine ⟨fun hdr i p s hd hp => ?_, fun ev rest hdr i p hf hd => ?_⟩
  · rw [transact_eq_finish, transactRule_of_length_ne hd hp, finish_error]
  · exact (fetch_eq_command hf).trans (payloadToRead_of_decode hd)

/-- Settles O17: a status is answered where no such command came, or raised by the command's rule as R78 says. -/
theorem statusesAreRaisedByTheirCommands : Obligations.StatusesAreRaisedByTheirCommands := by
  refine ⟨by decide, fun hdr p s t r hx hr => ?_⟩
  rcases transact_answer hx hr with ⟨rfl, hne⟩ | ⟨i, hd, hp, hcase⟩
  · exact ⟨nofun, nofun, nofun, nofun, nofun, nofun, fun _ => hne, fun _ => rfl⟩
  have hraise (status : Status) (hst : r.status = status) (hne : status ≠ .ok) :
      MayRaise s.variant s.engine i p status := by
    rcases hcase with ⟨-, h⟩ | ⟨hok, -⟩
    · rwa [hst] at h
    · exact absurd (hst.symm.trans hok) hne
  simp only [hd, Option.some.injEq]
  refine ⟨fun h => hraise _ h (by decide), fun h => hraise _ h (by decide), fun h => hraise _ h (by decide),
    fun h => hraise _ h (by decide), fun h => hraise _ h (by decide), fun h => hraise _ h (by decide),
    fun h => (hraise _ h (by decide)).elim, fun h => absurd hp (h i rfl)⟩

/-- Settles O18: an error has no output, and a success as many bytes as its command puts out. -/
theorem outputOnlyFromSuccessfulCombine : Obligations.OutputOnlyFromSuccessfulCombine := by
  intro hdr p s t r hx hr
  rcases transact_answer hx hr with ⟨rfl, -⟩ | ⟨i, hd, -, ⟨hout, hraise⟩ | ⟨hok, hlen⟩⟩
  · exact ⟨nofun, fun _ => rfl⟩
  · refine ⟨fun op len _ hok => ?_, fun _ => hout⟩
    rw [hok] at hraise
    exact hraise.elim
  · rw [hd]
    refine ⟨fun op len hi _ => ?_, fun h => ?_⟩
    · cases hi
      rw [hlen, outLength_combine]
    · have hnot := h.resolve_left (fun hne => hne hok)
      rw [outLength_of_not_combine fun op len hi => hnot op len (congrArg some hi)] at hlen
      exact List.length_eq_zero_iff.1 hlen

/-- Settles O49: each assembling function checks the ranges of the fields it encodes. -/
theorem assembledCommandsAreComplete : Obligations.AssembledCommandsAreComplete := by
  intro line cmds h
  cases line with
  | setkey rounds key => exact asmSetkey_complete h
  | setkeyDefault key => exact asmSetkey_complete h
  | resync iv n => exact asmResync_complete h
  | resyncDefault iv => exact asmResync_complete h
  | combineEnc data | encrypt data => exact asmEnc_complete h
  | combineDec data | decrypt data => exact asmDec_complete h
  | combineGen count | keystream count => exact asmGen_complete h
  | seek n => exact asmSeek_complete h
  | rewind => exact asmSeek_complete h
  | encryptLong data => exact asmEncryptLong_complete h

/-- Settles O50: all but ENCRYPT.LONG are their expansions by definition, and it is the pieces of its data. -/
theorem pseudoInstructionsExpand : Obligations.PseudoInstructionsExpand := by
  refine ⟨fun _ => rfl, fun _ => rfl, fun _ => rfl, fun _ => rfl, fun _ => rfl, rfl, fun data => ?_⟩
  refine ⟨_, asmEncryptLong_eq data, ?_, ?_, ?_, ?_⟩
  · have hsnd : Prod.snd ∘ encCommand = id := rfl
    rw [List.map_map, hsnd, List.map_id, longPieces_flatten le_rfl]
  · rintro rfl
    rfl
  · refine List.forall_mem_map.2 fun piece hp => ?_
    obtain ⟨hne, hle⟩ := longPieces_bounds hp
    exact ⟨hne, decode_encCommand hle⟩
  · rw [← List.map_dropLast]
    exact List.forall_mem_map.2 fun piece hp => longPieces_dropLast_full hp

/-- Settles O7: each header evaluates to what the tables give. -/
theorem sampleHeadersDecode : Obligations.SampleHeadersDecode := by
  unfold Obligations.SampleHeadersDecode
  decide

end Sys2Proof.Proofs
end

section
/-! PROOFS. The state_init_unit: when SETKEY and RESYNC fail, that they complete otherwise, and what their results depend on
(41_state_init.md). -/

namespace Sys2Proof.Machine

/-! ### A command's answer from its rule -/

theorem exec_of_ok {i : Instr} {s : State} {e : Engine} {out : List Byte} (h : s.payload.length = payloadLen i)
    (hrule : commandRule s.variant s.engine i s.payload = .ok (e, out)) : exec i s = .next (s.respond ⟨.ok, out⟩ e) := by
  rw [exec_of_length h, hrule, finish_ok]

theorem exec_of_error {i : Instr} {s : State} {status : Status} (h : s.payload.length = payloadLen i)
    (hrule : commandRule s.variant s.engine i s.payload = .error status) :
    exec i s = .next (s.respond ⟨status, []⟩ s.engine) := by
  rw [exec_of_length h, hrule, finish_error]

/-! ### The branches of SETKEY and RESYNC (41_state_init.md R100, R101, R110, R111) -/

/-- The legal key lengths, both ways (00_scope.md R7). -/
theorem keyBytesOk_iff {v : Variant} {len : Nat} : keyBytesOk v len = true ↔ len = 32 ∨ (len = 16 ∧ v = .original) := by
  refine ⟨keyBytesOk_cases, ?_⟩
  rintro (rfl | ⟨rfl, rfl⟩)
  · cases v <;> rfl
  · rfl

/-- The seven counts are the even ones from 8 to 20 (41_state_init.md R100). -/
theorem mem_legalRounds_iff {rnd : Nat} : rnd ∈ legalRounds ↔ rnd % 2 = 0 ∧ 8 ≤ rnd ∧ rnd ≤ 20 := by
  simp only [legalRounds, List.mem_cons, List.not_mem_nil, or_false]
  omega

/-- `RND` is checked in ORIGINAL only (00_scope.md R7). -/
theorem roundsOk_iff {v : Variant} {rnd : Nat} : roundsOk v rnd = true ↔ (v = .original → rnd ∈ legalRounds) := by
  cases v with
  | original => exact List.contains_iff_mem.trans ⟨fun h _ => h, fun h => h rfl⟩
  | ietf => exact ⟨fun _ hv => (nomatch hv), fun _ => rfl⟩

theorem counterFits_iff {v : Variant} {n : Nat} : counterFits v n = true ↔ n < 2 ^ ctrBits v := decide_eq_true_iff

theorem setkey_of_bad_length {v : Variant} {len : Nat} (hLen : keyBytesOk v len = false) (rnd : Nat) (e : Engine)
    (p : List Byte) : e.setkey v rnd len p = .error .invalidKeyLength := by
  simp [Engine.setkey, hLen]

theorem setkey_of_bad_rounds {v : Variant} {rnd len : Nat} (hLen : keyBytesOk v len = true) (hRnd : roundsOk v rnd = false)
    (e : Engine) (p : List Byte) : e.setkey v rnd len p = .error .invalidRounds := by
  simp [Engine.setkey, hLen, hRnd]

/-- SETKEY has no check beyond these two; `setkey_ok` says what it builds. -/
theorem setkey_completes {v : Variant} {rnd len : Nat} (hLen : keyBytesOk v len = true) (hRnd : roundsOk v rnd = true)
    (e : Engine) (p : List Byte) : ∃ e', e.setkey v rnd len p = .ok (e', []) := by
  simp [Engine.setkey, hLen, hRnd]

theorem resync_of_bad_length {v : Variant} {len : Nat} {e : Engine} (hk : e.keyed = true) (hLen : len ≠ nonceBytes v)
    (p : List Byte) : e.resync v len p = .error .invalidIVLength :=
  (requireKeyed_of_keyed _ hk).trans (if_pos hLen)

theorem resync_of_not_fits {v : Variant} {len : Nat} {e : Engine} {p : List Byte} (hk : e.keyed = true)
    (hLen : len = nonceBytes v) (hn : 2 ^ ctrBits v ≤ initialBlock len p) : e.resync v len p = .error .invalidSeek := by
  have hfits : counterFits v (initialBlock len p) = false :=
    Bool.eq_false_iff.2 fun h => Nat.not_lt.2 hn (counterFits_iff.1 h)
  rw [Engine.resync, requireKeyed_of_keyed _ hk, if_neg (not_not.2 hLen), hfits]
  rfl

/-- RESYNC has no check beyond these; `resync_ok` says what it leaves. -/
theorem resync_completes {v : Variant} {len : Nat} {e : Engine} {p : List Byte} (hk : e.keyed = true)
    (hLen : len = nonceBytes v) (hn : initialBlock len p < 2 ^ ctrBits v) : ∃ e', e.resync v len p = .ok (e', []) := by
  rw [Engine.resync, requireKeyed_of_keyed _ hk, if_neg (not_not.2 hLen), counterFits_iff.2 hn]
  exact ⟨_, rfl⟩

/-- Every initial block is a 64-bit number, so in ORIGINAL all of them fit (41_state_init.md R111). -/
theorem initialBlock_fits {v : Variant} {len : Nat} {p : List Byte} (h : v = .ietf → initialBlock len p < 2 ^ 32) :
    initialBlock len p < 2 ^ ctrBits v := by
  cases v with
  | original => exact (le64 (p.drop len) 0).isLt
  | ietf => exact h rfl

/-! ### The words they write (10_state.md R22 to R24) -/

/-- Words 0 to 3 of a 32-byte key are those of `SIGMA`, of a shorter one those of `TAU` (10_state.md R22). -/
theorem initialWords_constants (len : Nat) (key : List Byte) :
    (initialWords len key)[0] = 0x61707865 ∧
      (initialWords len key)[1] = (if len = 32 then 0x3320646e else 0x3120646e) ∧
      (initialWords len key)[2] = (if len = 32 then 0x79622d32 else 0x79622d36) ∧
      (initialWords len key)[3] = 0x6b206574 := by
  have constant := initialWords_constant len key
  refine ⟨(constant 0).trans ?_, (constant 1).trans ?_, (constant 2).trans ?_, (constant 3).trans ?_⟩
  all_goals
    unfold constantWords
    split <;> rfl

/-- The IV words in ORIGINAL's places (10_state.md R24). -/
theorem nonceWords_original (w : Words) (iv : List Byte) :
    (nonceWords .original w iv)[14] = le32 iv 0 ∧ (nonceWords .original w iv)[15] = le32 iv 1 := by
  simp [nonceWords, nonceWord]

/-- The IV words in IETF's places (10_state.md R24). -/
theorem nonceWords_ietf (w : Words) (iv : List Byte) :
    (nonceWords .ietf w iv)[13] = le32 iv 0 ∧ (nonceWords .ietf w iv)[14] = le32 iv 1 ∧
      (nonceWords .ietf w iv)[15] = le32 iv 2 := by
  simp [nonceWords, nonceWord]

/-- Counter and nonce together are all of words 12 to 15, so only words 0 to 11 of the old state are left
(41_state_init.md R112). -/
theorem resync_words_congr {v : Variant} {w w' : Words} (h : ∀ j : Fin 12, w[j.val] = w'[j.val]) (n : Nat)
    (iv : List Byte) : nonceWords v (counterWords v w n) iv = nonceWords v (counterWords v w' n) iv := by
  ext1 j hj
  by_cases hkey : j < 12
  · calc (nonceWords v (counterWords v w n) iv)[j] = w[j] := resync_words_frame v w n iv ⟨j, hj⟩ hkey
      _ = w'[j] := h ⟨j, hkey⟩
      _ = (nonceWords v (counterWords v w' n) iv)[j] := (resync_words_frame v w' n iv ⟨j, hj⟩ hkey).symm
  · have hlast : j = 12 ∨ j = 13 ∨ j = 14 ∨ j = 15 := by omega
    rcases hlast with rfl | rfl | rfl | rfl <;> cases v <;> simp [nonceWords, counterWords]

/-! ### What their results depend on (41_state_init.md R103, R104, R112) -/

/-- IETF's checks and round count do not mention `RND` (41_state_init.md R103). -/
theorem exec_setkey_ietf_congr {s : State} (hv : s.variant = .ietf) (rnd rnd' len : Nat) :
    exec (.setkey rnd len) s = exec (.setkey rnd' len) s := by
  rw [exec_eq_runCommand, exec_eq_runCommand, hv]
  rfl

/-- A RESYNC reads words 0 to 11, `ROUNDS` and `KEYED` of the block and no more (41_state_init.md R112). -/
theorem resync_same_of_key {v : Variant} {e f : Engine} (hw : ∀ j : Fin 12, e.w[j.val] = f.w[j.val])
    (hr : e.rounds = f.rounds) (hk : e.keyed = f.keyed) (len : Nat) (p : List Byte) :
    SameResult (e.resync v len p) (f.resync v len p) := by
  refine requireKeyed_same hk ?_
  split
  · rfl
  · split
    · rfl
    · exact ⟨rfl, sameButConsumed_of_empty (resync_words_congr hw _ p) hr hk rfl rfl rfl⟩

theorem sameResult_ok {e : Engine} {out : List Byte} {r : CommandResult} (h : SameResult (.ok (e, out)) r) :
    ∃ f, r = .ok (f, out) ∧ e.SameButConsumed f := by
  match r, h with
  | .ok (f, _), ⟨rfl, hsame⟩ => exact ⟨f, rfl, hsame⟩

/-- Where a command's rule gives results that cannot be told apart on two blocks, a success on the one is a success on the
other. -/
theorem exec_ok_of_same {i : Instr} {s t s' : State} {out : List Byte} (hp : s.payload = t.payload)
    (same : SameResult (commandRule s.variant s.engine i s.payload) (commandRule t.variant t.engine i t.payload))
    (hx : exec i s = .next s') (hr : s'.response = some ⟨.ok, out⟩) :
    ∃ t', exec i t = .next t' ∧ t'.response = some ⟨.ok, out⟩ ∧ s'.engine.SameButConsumed t'.engine := by
  obtain ⟨hne, -, -⟩ | ⟨-, hlen, hrule⟩ := exec_answer hx hr
  · exact absurd rfl hne
  · rw [hrule] at same
    obtain ⟨f, hrule', hsame⟩ := sameResult_ok same
    exact ⟨_, exec_of_ok (hp ▸ hlen) hrule', rfl, hsame⟩

end Sys2Proof.Machine

namespace Sys2Proof.Proofs

open Sys2Proof.Machine

/-- Settles O23: both checks pass, and the words are those of the built state. -/
theorem setkeyBuildsTheState : Obligations.SetkeyBuildsTheState := by
  intro rnd len s hp hLen hRnd
  have hrounds : roundsOk s.variant rnd = true :=
    roundsOk_iff.2 fun hv => mem_legalRounds_iff.2 (by have := hRnd hv; omega)
  obtain ⟨e, hrule⟩ := setkey_completes (keyBytesOk_iff.2 hLen) hrounds s.engine s.payload
  obtain ⟨-, hkeyed, hexh, hpos, hkb⟩ := setkey_writes hrule
  have hexec : exec (.setkey rnd len) s = .next (s.respond ⟨.ok, []⟩ e) := exec_of_ok hp hrule
  obtain ⟨-, -, -, rfl⟩ := setkey_ok hrule
  obtain ⟨h0, h1, h2, h3⟩ := initialWords_constants len s.payload
  refine ⟨_, hexec, h0, h1, h2, h3, initialWords_key len s.payload, fun j => ?_, ?_, hkeyed, hexh, hpos, hkb⟩
  · exact initialWords_counter_nonce len s.payload ⟨12 + j.val, by omega⟩ (Nat.le_add_right 12 j.val)
  · cases s.variant <;> rfl

/-- Settles O24: the length check comes first, whatever `RND`. -/
theorem setkeyChecksKeyLengthFirst : Obligations.SetkeyChecksKeyLengthFirst := by
  intro rnd len s hp
  refine ⟨fun hLen => ?_, fun hLen hv hRnd => ?_⟩
  · have hbad : keyBytesOk s.variant len = false := Bool.eq_false_iff.2 (mt keyBytesOk_iff.1 hLen)
    exact exec_of_error hp (setkey_of_bad_length hbad rnd s.engine s.payload)
  · have hok : keyBytesOk s.variant len = true := keyBytesOk_iff.2 (hLen.imp_right fun h16 => ⟨h16, hv⟩)
    have hbad : roundsOk s.variant rnd = false :=
      Bool.eq_false_iff.2 fun h => hRnd (mem_legalRounds_iff.1 (roundsOk_iff.1 h hv))
    exact exec_of_error hp (setkey_of_bad_rounds hok hbad s.engine s.payload)

/-- Settles O25: IETF's SETKEY does not read `RND`, its rule may raise `InvalidRounds` in ORIGINAL only, and it stores 20. -/
theorem ietfSetkeyIgnoresRounds : Obligations.IetfSetkeyIgnoresRounds := by
  intro rnd rnd' len s t r hv hx hr
  refine ⟨exec_setkey_ietf_congr hv rnd rnd' len ▸ hx, ?_⟩
  rcases exec_answer hx hr with ⟨hne, -, herr⟩ | ⟨hok, -, hrule⟩
  · refine ⟨fun hbad => ?_, fun hok => absurd hok hne⟩
    rw [hbad, hv] at herr
    rcases herr with hill | hrule
    · cases hill
    · cases (setkey_mayRaise hrule).1
  · refine ⟨by rw [hok]; decide, fun _ => ?_⟩
    rw [hv] at hrule
    obtain ⟨-, -, -, he⟩ := setkey_ok hrule
    rw [he]
    rfl

/-- Settles O26: SETKEY's rule reads nothing of the block but `KB`, which an empty buffer hides. -/
theorem setkeyBuildsAfresh : Obligations.SetkeyBuildsAfresh := by
  intro rnd len s t s' hv hp hx hr
  have same : SameResult (s.engine.setkey s.variant rnd len s.payload) (t.engine.setkey t.variant rnd len t.payload) := by
    rw [hv, hp]
    exact setkey_same t.variant rnd len s.engine t.engine t.payload
  obtain ⟨t', hx', hr', hsame⟩ := exec_ok_of_same (i := .setkey rnd len) hp same hx hr
  obtain ⟨hne, -, -⟩ | ⟨-, -, hrule⟩ := exec_answer hx hr
  · exact absurd rfl hne
  · obtain ⟨hzero, -, hexh, hpos, -⟩ := setkey_writes hrule
    exact ⟨t', hx', hr', hsame, fun j => hzero ⟨12 + j.val, by omega⟩ (Nat.le_add_right 12 j.val), hpos, hexh⟩

/-- Settles O27: every check passes, and the nonce words are set after the counter words. -/
theorem resyncSetsNonceAndCounter : Obligations.ResyncSetsNonceAndCounter := by
  intro len s hk hp hLen hn
  have hbytes : len = nonceBytes s.variant := hLen.trans (by cases s.variant <;> rfl)
  obtain ⟨e, hrule⟩ := resync_completes hk hbytes (initialBlock_fits hn)
  obtain ⟨hframe, hctr, hrounds, hkeyed, hexh, hkb, hpos⟩ := resync_writes hrule
  obtain ⟨-, -, -, -, he⟩ := resync_ok hrule
  refine ⟨e, exec_of_ok hp hrule, hctr, fun hv => ?_, fun hv => ?_, fun j => hframe ⟨j.val, by omega⟩ j.isLt, hrounds,
    hkeyed.trans hk, hexh, hpos, hkb⟩
  · rw [he, hv]
    exact nonceWords_original _ s.payload
  · rw [he, hv]
    exact nonceWords_ietf _ s.payload

/-- Settles O28: the IV length is checked before the range of the initial block, which is below `2^64`. -/
theorem resyncInitialBlockMustFit : Obligations.ResyncInitialBlockMustFit := by
  intro len s hk hp
  refine ⟨fun hLen hn => ⟨?_, ?_⟩, fun hLen => ?_⟩
  · by_contra hv
    exact Nat.not_lt.2 hn (initialBlock_fits fun h => absurd h hv)
  · exact exec_of_error hp (resync_of_not_fits hk hLen hn)
  · exact exec_of_error hp (resync_of_bad_length hk hLen s.payload)

/-- Settles O29: RESYNC overwrites the counter, the nonce, `EXH` and the cursor without reading them. -/
theorem resyncForgetsThePast : Obligations.ResyncForgetsThePast := by
  intro len s t s' hv hp hw hrounds hk hx hr
  have same : SameResult (s.engine.resync s.variant len s.payload) (t.engine.resync t.variant len t.payload) := by
    rw [hv, hp]
    exact resync_same_of_key hw hrounds hk len t.payload
  exact exec_ok_of_same hp same hx hr

end Sys2Proof.Proofs
end

section
/-! PROOFS. The diffusion datapath: its rotations as bit movements, which words a quarter-round touches, the order of the
quarter-rounds of a pass, the bytes of a block, and the double-rounds of `Diffuse` (42_diffusion.md). -/

namespace Sys2Proof.Machine

/-! ### Rotation (42_diffusion.md R130) -/

theorem rotl32_eq_rotateLeft (x : Word) {n : Nat} (h : n < 32) : rotl32 x n = x.rotateLeft n :=
  (BitVec.rotateLeft_eq_rotateLeftAux_of_lt h).symm

/-- Bit `i` moves up by `n`, and where that leaves the word it comes in again at the low end. -/
theorem rotl32_getLsbD (x : Word) {n i : Nat} (hn : n < 32) (hi : i < 32) :
    (rotl32 x n).getLsbD ((i + n) % 32) = x.getLsbD i := by
  rw [rotl32_eq_rotateLeft x hn, BitVec.getLsbD_rotateLeft, Nat.mod_eq_of_lt hn]
  by_cases wraps : i + n < 32
  · have place : (i + n) % 32 = i + n := Nat.mod_eq_of_lt wraps
    simp [place, wraps]
  · have place : (i + n) % 32 = i + n - 32 := by omega
    have low : i + n - 32 < n := by omega
    have source : 32 - n + (i + n - 32) = i := by omega
    simp [place, low, source]

/-! ### The words a quarter-round touches (42_diffusion.md R132) -/

/-- Four places of a state, in the order in which a quarter-round takes them. -/
abbrev WordGroup : Type := Fin 16 × Fin 16 × Fin 16 × Fin 16

/-- The quarter-round of one group of words. -/
def quarterRoundOn (x : Words) (g : WordGroup) : Words := quarterRoundAt x g.1 g.2.1 g.2.2.1 g.2.2.2

/-- The words of a group. -/
def groupWords (g : WordGroup) : List (Fin 16) := [g.1, g.2.1, g.2.2.1, g.2.2.2]

theorem notMem_groupWords_iff {m i j k l : Fin 16} :
    m ∉ groupWords (i, j, k, l) ↔ m.val ≠ i.val ∧ m.val ≠ j.val ∧ m.val ≠ k.val ∧ m.val ≠ l.val := by
  simp [groupWords, Fin.ext_iff]

theorem quarterRoundOn_eq (x : Words) (i j k l : Fin 16) :
    quarterRoundOn x (i, j, k, l) =
      (((x.set i (quarterRound x[i] x[j] x[k] x[l]).1).set j (quarterRound x[i] x[j] x[k] x[l]).2.1).set k
        (quarterRound x[i] x[j] x[k] x[l]).2.2.1).set l (quarterRound x[i] x[j] x[k] x[l]).2.2.2 := rfl

/-- A word outside the group is not written. -/
theorem quarterRoundOn_getElem_of_notMem (x : Words) {g : WordGroup} {m : Fin 16} (h : m ∉ groupWords g) :
    (quarterRoundOn x g)[m] = x[m] := by
  obtain ⟨i, j, k, l⟩ := g
  obtain ⟨hi, hj, hk, hl⟩ := notMem_groupWords_iff.1 h
  simp only [quarterRoundOn_eq, Fin.getElem_fin]
  rw [Vector.getElem_set_ne _ _ hl.symm, Vector.getElem_set_ne _ _ hk.symm, Vector.getElem_set_ne _ _ hj.symm,
    Vector.getElem_set_ne _ _ hi.symm]

/-- Nor is it read: setting it before the quarter-round is setting it after. -/
theorem quarterRoundOn_set_of_notMem (x : Words) {g : WordGroup} {m : Fin 16} (h : m ∉ groupWords g)
    (w : Word) : quarterRoundOn (x.set m w) g = (quarterRoundOn x g).set m w := by
  obtain ⟨i, j, k, l⟩ := g
  obtain ⟨hi, hj, hk, hl⟩ := notMem_groupWords_iff.1 h
  simp only [quarterRoundOn_eq, Fin.getElem_fin, Vector.getElem_set_ne _ _ hi, Vector.getElem_set_ne _ _ hj,
    Vector.getElem_set_ne _ _ hk, Vector.getElem_set_ne _ _ hl]
  rw [Vector.set_comm _ _ hi, Vector.set_comm _ _ hj, Vector.set_comm _ _ hk, Vector.set_comm _ _ hl]

/-! ### The order of the quarter-rounds of a pass (42_diffusion.md R135) -/

/-- Quarter-rounds of groups that share no word commute: the second reads what it would have read first, and the four words
the first writes are set on either side of it. -/
theorem quarterRoundOn_comm {g h : WordGroup} (apart : ∀ m ∈ groupWords g, m ∉ groupWords h) (x : Words) :
    quarterRoundOn (quarterRoundOn x g) h = quarterRoundOn (quarterRoundOn x h) g := by
  obtain ⟨i, j, k, l⟩ := g
  have hi : i ∉ groupWords h := apart _ (by simp [groupWords])
  have hj : j ∉ groupWords h := apart _ (by simp [groupWords])
  have hk : k ∉ groupWords h := apart _ (by simp [groupWords])
  have hl : l ∉ groupWords h := apart _ (by simp [groupWords])
  rw [quarterRoundOn_eq x, quarterRoundOn_set_of_notMem _ hl, quarterRoundOn_set_of_notMem _ hk,
    quarterRoundOn_set_of_notMem _ hj, quarterRoundOn_set_of_notMem _ hi, quarterRoundOn_eq (quarterRoundOn x h),
    quarterRoundOn_getElem_of_notMem x hi, quarterRoundOn_getElem_of_notMem x hj,
    quarterRoundOn_getElem_of_notMem x hk, quarterRoundOn_getElem_of_notMem x hl]

/-- Groups that pairwise share no word may be run in any order. -/
theorem foldl_quarterRoundOn_perm {order groups : List WordGroup} (perm : order.Perm groups)
    (apart : ∀ g ∈ groups, ∀ h ∈ groups, g = h ∨ ∀ m ∈ groupWords g, m ∉ groupWords h) (x : Words) :
    order.foldl quarterRoundOn x = groups.foldl quarterRoundOn x := by
  refine perm.foldl_eq' (fun g hg h hh y => ?_) x
  rcases apart g (perm.subset hg) h (perm.subset hh) with rfl | disjoint
  · rfl
  · exact quarterRoundOn_comm disjoint y

/-- The groups of `ColumnPass`, in its order (42_diffusion.md R132). -/
def columnGroups : List WordGroup := [(0, 4, 8, 12), (1, 5, 9, 13), (2, 6, 10, 14), (3, 7, 11, 15)]

/-- The groups of `DiagonalPass`, in its order (42_diffusion.md R133). -/
def diagonalGroups : List WordGroup := [(0, 5, 10, 15), (1, 6, 11, 12), (2, 7, 8, 13), (3, 4, 9, 14)]

theorem columnPass_eq_foldl (x : Words) : columnPass x = columnGroups.foldl quarterRoundOn x := rfl

theorem diagonalPass_eq_foldl (x : Words) : diagonalPass x = diagonalGroups.foldl quarterRoundOn x := rfl

theorem columnGroups_apart :
    ∀ g ∈ columnGroups, ∀ h ∈ columnGroups, g = h ∨ ∀ m ∈ groupWords g, m ∉ groupWords h := by decide

theorem diagonalGroups_apart :
    ∀ g ∈ diagonalGroups, ∀ h ∈ diagonalGroups, g = h ∨ ∀ m ∈ groupWords g, m ∉ groupWords h := by decide

/-- The passes themselves do not commute: on the state with a single 1 in word 0 they already differ in word 5. -/
theorem columnPass_diagonalPass_not_comm :
    ∃ x : Words, columnPass (diagonalPass x) ≠ diagonalPass (columnPass x) := by
  refine ⟨#v[1, 0, 0, 0, 0, 0, 0, 0, 0, 0, 0, 0, 0, 0, 0, 0], fun h => ?_⟩
  exact absurd (congrArg (fun y : Words => y[5]) h) (by decide)

/-! ### The bytes of a block (42_diffusion.md R137) -/

theorem serialize_getElem (z : Words) (i : Fin 16) (b : Fin 4) :
    (serialize z)[4 * i.val + b.val]'(by omega) = z[i].extractLsb' (8 * b.val) 8 := by
  have word : (4 * i.val + b.val) / 4 = i.val := by omega
  have byte : (4 * i.val + b.val) % 4 = b.val := by omega
  simp [serialize, word, byte]

theorem toList_eq_ofFn {α : Type} {n : Nat} (v : Vector α n) : v.toList = List.ofFn fun i : Fin n => v[i] := by
  rw [← Vector.toList_ofFn]
  exact congrArg Vector.toList Vector.ofFn_getElem.symm

/-- The 64 bytes taken four at a time are the bytes of one word after the other. -/
theorem serialize_toList (z : Words) : (serialize z).toList = z.toList.flatMap bytesLe32 :=
  calc (serialize z).toList
      = List.ofFn fun n : Fin (4 * 16) => (serialize z)[n] := toList_eq_ofFn _
    _ = (List.ofFn fun i : Fin 16 => List.ofFn fun b : Fin 4 => z[i].extractLsb' (8 * b.val) 8).flatten := by
        rw [List.ofFn_mul']
        simp only [Fin.getElem_fin, serialize_getElem]
    _ = (z.toList.map bytesLe32).flatten := by
        rw [toList_eq_ofFn z, List.map_ofFn]
        rfl
    _ = z.toList.flatMap bytesLe32 := List.flatMap_def.symm

/-! ### Double-rounds and the feed-forward (42_diffusion.md R134, R136) -/

theorem doubleRounds_eq_iterate (n : Nat) (x : Words) : doubleRounds n x = doubleRound^[n] x := by
  induction n generalizing x with
  | zero => rfl
  | succ n ih => exact ih (doubleRound x)

theorem diffuse_getElem (x : Words) (k : Nat) (i : Fin 16) :
    (diffuse x (2 * k))[i] = (doubleRound^[k] x)[i] + x[i] := by
  simp [diffuse, doubleRounds_eq_iterate]

end Sys2Proof.Machine

/-! ### The obligations -/

namespace Sys2Proof.Proofs

open Sys2Proof.Machine

/-- Settles O43: all four amounts are below 32. -/
theorem rotationMovesBits : Obligations.RotationMovesBits :=
  ⟨fun x _ _ amount hi => rotl32_getLsbD x (by omega) hi, by decide⟩

/-- Settles O44: the groups of either pass share no word, so any order of them is the order of the pass. -/
theorem quarterRoundsOfAPassCommute : Obligations.QuarterRoundsOfAPassCommute :=
  ⟨fun _ x perm => (foldl_quarterRoundOn_perm perm columnGroups_apart x).trans (columnPass_eq_foldl x).symm,
    fun _ x perm => (foldl_quarterRoundOn_perm perm diagonalGroups_apart x).trans (diagonalPass_eq_foldl x).symm,
    columnPass_diagonalPass_not_comm⟩

/-- Settles O45: the bytes one by one, and then word by word. -/
theorem serializationIsLittleEndian : Obligations.SerializationIsLittleEndian := by
  refine fun z => ⟨fun i b => ?_, serialize_toList z⟩
  rw [serialize_getElem, BitVec.setWidth_ushiftRight_eq_extractLsb]

/-- Settles O46: `Block` serializes `Diffuse`, so its bytes are those of the fed-forward words. -/
theorem diffuseFeedsForward : Obligations.DiffuseFeedsForward := by
  refine ⟨fun x k i => ⟨diffuse_getElem x k i, fun b => ?_⟩, refill_kb⟩
  rw [← diffuse_getElem x k i]
  exact (serializationIsLittleEndian (diffuse x (2 * k))).1 i b

/-- Settles O47: the kernel evaluates the datapath on the inputs of the test vectors. -/
theorem referenceRounds : Obligations.ReferenceRounds := by
  refine ⟨?quarterRound, ?doubleRound, ?blockB1, ?blockB2, ?blockO1⟩
  case quarterRound => decide
  case doubleRound => decide +kernel
  case blockB1 => decide +kernel
  case blockB2 => decide +kernel
  case blockO1 => decide +kernel

end Sys2Proof.Proofs
end

section
/-! PROOFS. The keystream_combiner_with_counter: a COMBINE as so many bytes taken off the keystream sequence, when it raises
`CounterOverflow`, and how it moves the counter and the cursor (43_keystream_combiner.md). -/

namespace Sys2Proof.Machine

/-! ### The keystream sequence under one byte (43_keystream_combiner.md R163, R164, R170) -/

theorem keystreamByte_of_buffered (v : Variant) {e : Engine} {t : Nat} (h : e.pos.val + t < 64) :
    e.keystreamByte v t = e.kb[e.pos.val + t] := dif_pos h

/-- Byte `u` beyond the buffered ones lies in block `u / 64` from `CTR` on. -/
theorem keystreamByte_of_beyond (v : Variant) {e : Engine} {t u : Nat} (h : t = e.avail + u) :
    e.keystreamByte v t = (e.blockAt v (e.ctr v + u / 64))[u % 64]'(Nat.mod_lt _ (by decide)) := by
  have beyond : ¬ e.pos.val + t < 64 := by
    rw [Engine.avail] at h
    omega
  have index : t - e.avail = u := by omega
  simp only [Engine.keystreamByte, dif_neg beyond, index]

/-- The sequence of `f` is that of `e` without its first `k` bytes. -/
def DropsKeystream (v : Variant) (k : Nat) (e f : Engine) : Prop :=
  ∀ t, (f.hasKeystreamByte v t ↔ e.hasKeystreamByte v (k + t)) ∧ f.keystreamByte v t = e.keystreamByte v (k + t)

theorem dropsKeystream_refl (v : Variant) (e : Engine) : DropsKeystream v 0 e e := fun t => by simp

theorem DropsKeystream.trans {v : Variant} {j k : Nat} {e f g : Engine} (hef : DropsKeystream v j e f)
    (hfg : DropsKeystream v k f g) : DropsKeystream v (j + k) e g := by
  intro t
  obtain ⟨hasFG, byteFG⟩ := hfg t
  obtain ⟨hasEF, byteEF⟩ := hef (k + t)
  rw [Nat.add_assoc]
  exact ⟨hasFG.trans hasEF, byteFG.trans byteEF⟩

/-- The byte at the cursor is the first of the sequence. -/
theorem consumeAt_keystreamByte (v : Variant) {e : Engine} {p : Fin 64} (h : e.pos.val = p.val) :
    (e.consumeAt p).1 = e.keystreamByte v 0 := by
  have buffered : e.pos.val + 0 < 64 := by omega
  rw [consumeAt_byte, keystreamByte_of_buffered v buffered]
  simp [h]

/-- Using the byte at the cursor takes it off the sequence. -/
theorem consumeAt_dropsKeystream (v : Variant) {e : Engine} {p : Fin 64} (h : e.pos.val = p.val) :
    DropsKeystream v 1 e (e.consumeAt p).2 := by
  have cursor : (e.consumeAt p).2.pos.val = e.pos.val + 1 := by rw [h]; rfl
  have left : (e.consumeAt p).2.avail + 1 = e.avail := by
    rw [Engine.avail, cursor, Engine.avail]
    omega
  have blocks : (e.consumeAt p).2.blocksLeft = e.blocksLeft := rfl
  intro t
  constructor
  · simp only [Engine.hasKeystreamByte, blocks]
    exact or_congr_right (by omega)
  · by_cases buffered : e.pos.val + (1 + t) < 64
    · have buffered' : (e.consumeAt p).2.pos.val + t < 64 := by omega
      have index : e.pos.val + 1 + t = e.pos.val + (1 + t) := by omega
      rw [keystreamByte_of_buffered v buffered, keystreamByte_of_buffered v buffered']
      simp only [consumeAt_kb, cursor, index]
    · have beyond : 1 + t = e.avail + (1 + t - e.avail) := by
        rw [Engine.avail]
        omega
      have beyond' : t = (e.consumeAt p).2.avail + (1 + t - e.avail) := by omega
      rw [keystreamByte_of_beyond v beyond, keystreamByte_of_beyond v beyond']
      rfl

/-- The block a refill makes is the one of the counter as it stands. -/
theorem blockAt_ctr (v : Variant) (e : Engine) : e.blockAt v (e.ctr v) = block e.w e.rounds := by
  rw [Engine.blockAt, counterWords_ctr]

theorem refill_ctr_mod {v : Variant} {e : Engine} (hlt : e.ctr v < 2 ^ ctrBits v) :
    (e.refill v).ctr v % 2 ^ ctrBits v = (e.ctr v + 1) % 2 ^ ctrBits v := by
  cases v with
  | original => rw [refill_ctr_original, ctrBits, Nat.mod_mod]
  | ietf => rw [refill_ctr_ietf hlt]

/-- The blocks from the counter on after a refill are those before it without the first. -/
theorem refill_blockAt {v : Variant} {e : Engine} (hlt : e.ctr v < 2 ^ ctrBits v) (m : Nat) :
    (e.refill v).blockAt v ((e.refill v).ctr v + m) = e.blockAt v (e.ctr v + (m + 1)) := by
  have index : ((e.refill v).ctr v + m) % 2 ^ ctrBits v = (e.ctr v + (m + 1)) % 2 ^ ctrBits v := by
    rw [Nat.add_mod, refill_ctr_mod hlt, ← Nat.add_mod, Nat.add_assoc, Nat.add_comm 1 m]
  rw [Engine.blockAt, counterWords_refill, refill_rounds, ← counterWords_mod, index, counterWords_mod, Engine.blockAt]

/-- A refill for which a block is left moves a block of the sequence into the buffer and keeps the sequence
(43_keystream_combiner.md R164). -/
theorem refill_dropsKeystream {v : Variant} {e : Engine} (hpos : e.pos = 64) (hlt : e.ctr v < 2 ^ ctrBits v) :
    DropsKeystream v 0 e (e.refill v) := by
  have none_left : e.avail = 0 := by simp [Engine.avail, hpos]
  have all_left : (e.refill v).avail = 64 := by simp [Engine.avail]
  intro t
  rw [Nat.zero_add]
  constructor
  · cases v with
    | original => simp [Engine.hasKeystreamByte]
    | ietf =>
      simp only [ctrBits] at hlt
      simp only [Engine.hasKeystreamByte, none_left, all_left, Engine.blocksLeft, refill_ctr_ietf hlt]
      exact or_congr_right (by omega)
  · have beyond : t = e.avail + t := by omega
    rw [keystreamByte_of_beyond v beyond]
    by_cases first : t < 64
    · have buffered : (e.refill v).pos.val + t < 64 := by simpa using first
      rw [keystreamByte_of_buffered v buffered]
      simp [Nat.div_eq_of_lt first, Nat.mod_eq_of_lt first, blockAt_ctr]
    · have beyond' : t = (e.refill v).avail + (t - 64) := by omega
      have hdiv : (t - 64) / 64 + 1 = t / 64 := by omega
      have hmod : (t - 64) % 64 = t % 64 := by omega
      rw [keystreamByte_of_beyond v beyond']
      simp only [refill_blockAt hlt, hdiv, hmod]

/-- The next keystream byte of a request that passes `OverflowCheck` is the first of the sequence; the rest of the sequence,
and a request of one byte less, are left. -/
theorem nextKeyByte_of_fits {v : Variant} {e : Engine} {n : Nat} (hov : e.overflows v (n + 1) = false) :
    (e.nextKeyByte v).1 = e.keystreamByte v 0 ∧ DropsKeystream v 1 e (e.nextKeyByte v).2 ∧
      (e.nextKeyByte v).2.overflows v n = false := by
  rcases nextKeyByte_cases v e with ⟨h, hn⟩ | ⟨h, hn⟩
  · rw [hn]
    exact ⟨consumeAt_keystreamByte v rfl, consumeAt_dropsKeystream v rfl, overflows_consumeAt h hov⟩
  · have kept := refill_dropsKeystream h (ctr_lt_of_not_overflows h hov)
    have cursor : (e.refill v).pos.val = (0 : Fin 64).val := by simp
    obtain ⟨-, byte⟩ := kept 0
    rw [hn]
    exact ⟨(consumeAt_keystreamByte v cursor).trans byte, kept.trans (consumeAt_dropsKeystream v cursor),
      overflows_refill h hov⟩

/-! ### The block after so many bytes -/

/-- The first `n` bytes of `KS(S)` (43_keystream_combiner.md R170). -/
def Engine.keystream (v : Variant) (e : Engine) (n : Nat) : List Byte := (List.range n).map (e.keystreamByte v)

@[simp] theorem keystream_length (v : Variant) (e : Engine) (n : Nat) : (e.keystream v n).length = n := by
  simp [Engine.keystream]

theorem keystream_add {v : Variant} {e f : Engine} {m : Nat} (h : DropsKeystream v m e f) (n : Nat) :
    e.keystream v (m + n) = e.keystream v m ++ f.keystream v n := by
  have rest : f.keystream v n = (List.range n).map fun t => e.keystreamByte v (m + t) :=
    List.map_congr_left fun t _ => (h t).2
  rw [rest, Engine.keystream, List.range_add, List.map_append, List.map_map]
  rfl

/-- The block that the loop of a COMBINE leaves after `n` bytes, whatever their inputs: that of GEN. -/
def Engine.afterBytes (v : Variant) (n : Nat) (e : Engine) : Engine :=
  (Engine.combineLoop v (List.replicate n none) e).2

theorem combineLoop_eq_afterBytes (v : Variant) (bs : List (Option Byte)) (e : Engine) :
    (Engine.combineLoop v bs e).2 = e.afterBytes v bs.length :=
  combineLoop_state v bs _ e (by simp)

theorem afterBytes_succ (v : Variant) (n : Nat) (e : Engine) :
    e.afterBytes v (n + 1) = (e.nextKeyByte v).2.afterBytes v n := rfl

theorem afterBytes_add (v : Variant) (m n : Nat) (e : Engine) :
    e.afterBytes v (m + n) = (e.afterBytes v m).afterBytes v n := by
  simp only [Engine.afterBytes, List.replicate_add, combineLoop_append]

@[simp] theorem afterBytes_rounds (v : Variant) (n : Nat) (e : Engine) : (e.afterBytes v n).rounds = e.rounds :=
  combineLoop_rounds v _ e

@[simp] theorem afterBytes_keyed (v : Variant) (n : Nat) (e : Engine) : (e.afterBytes v n).keyed = e.keyed :=
  combineLoop_keyed v _ e

/-- Setting the counter forgets how many bytes were used. -/
theorem counterWords_afterBytes (v : Variant) (n : Nat) (e : Engine) (m : Nat) :
    counterWords v (e.afterBytes v n).w m = counterWords v e.w m := by
  induction n generalizing e with
  | zero => rfl
  | succ n ih =>
    rw [afterBytes_succ, ih]
    rcases nextKeyByte_cases v e with ⟨_, hn⟩ | ⟨_, hn⟩
    · rw [hn, consumeAt_w]
    · rw [hn, consumeAt_w, counterWords_refill]

/-- Induction along the bytes of a request that passes `OverflowCheck`. -/
theorem afterBytes_induction {v : Variant} {P : Nat → Engine → Prop}
    (buffered : ∀ n e (h : e.pos.val < 64), P (n + 1) e → P n (e.consumeAt ⟨e.pos.val, h⟩).2)
    (refilled : ∀ n e, e.pos = 64 → e.ctr v < 2 ^ ctrBits v → P (n + 1) e → P n ((e.refill v).consumeAt 0).2)
    {n : Nat} {e : Engine} (hov : e.overflows v n = false) (start : P n e) : P 0 (e.afterBytes v n) :=
  combineLoop_induction buffered refilled (List.replicate n none) e (by rwa [List.length_replicate])
    (by rwa [List.length_replicate])

/-- `n` bytes used are the first `n` of the sequence (43_keystream_combiner.md R170). -/
theorem afterBytes_dropsKeystream {v : Variant} {n : Nat} {e : Engine} (hov : e.overflows v n = false) :
    DropsKeystream v n e (e.afterBytes v n) := by
  induction n generalizing e with
  | zero => exact dropsKeystream_refl v e
  | succ n ih =>
    obtain ⟨-, first, hov'⟩ := nextKeyByte_of_fits hov
    rw [afterBytes_succ, Nat.add_comm n 1]
    exact first.trans (ih hov')

/-- The loop combines its inputs with the keystream sequence, byte by byte. -/
theorem combineLoop_eq_zipWith {v : Variant} {bs : List (Option Byte)} {e : Engine}
    (hov : e.overflows v bs.length = false) :
    (Engine.combineLoop v bs e).1 = List.zipWith combineByte (e.keystream v bs.length) bs := by
  induction bs generalizing e with
  | nil => rfl
  | cons b bs ih =>
    obtain ⟨byte, first, hov'⟩ := nextKeyByte_of_fits hov
    have first_byte : e.keystream v (b :: bs).length = e.keystreamByte v 0 :: (e.nextKeyByte v).2.keystream v bs.length := by
      rw [List.length_cons, Nat.add_comm bs.length 1, keystream_add first]
      rfl
    rw [combineLoop_cons, first_byte, List.zipWith_cons_cons, ih hov', byte]

/-! ### The three operations (43_keystream_combiner.md R160 to R163) -/

/-- The mode of `Combine` that an operation runs in. -/
def CombineOp.mode : CombineOp → CombineMode
  | .enc | .dec => .xor
  | .gen => .gen

theorem commandRule_combineOp (v : Variant) (e : Engine) (op : CombineOp) (len : Nat) (p : List Byte) :
    commandRule v e (op.instr len) p = e.combine v op.mode len p := by cases op <;> rfl

theorem combineOp_inputs_length {op : CombineOp} {len : Nat} {p : List Byte} (hp : p.length = payloadLen (op.instr len)) :
    (combineInputs op.mode len p).length = len := by
  cases op with
  | enc | dec => exact combineInputs_length fun _ => hp
  | gen => exact combineInputs_length fun hm => nomatch hm

/-- What an operation makes of `len` keystream bytes is what the loop makes of its inputs. -/
theorem zipWith_combineInputs (op : CombineOp) {len : Nat} {ks : List Byte} (hks : ks.length = len) (p : List Byte) :
    List.zipWith combineByte ks (combineInputs op.mode len p) = op.output ks p := by
  cases op with
  | enc | dec => exact List.zipWith_map_right
  | gen =>
    subst hks
    refine List.ext_getElem (by simp [CombineOp.mode, CombineOp.output, combineInputs]) fun i _ _ => ?_
    simp [CombineOp.mode, CombineOp.output, combineInputs, combineByte]

/-- A COMBINE that passes both checks takes `len` bytes off the sequence. -/
theorem combineOp_of_fits {v : Variant} {op : CombineOp} {len : Nat} {e : Engine} {p : List Byte}
    (hk : e.keyed = true) (hp : p.length = payloadLen (op.instr len)) (hov : e.overflows v len = false) :
    commandRule v e (op.instr len) p = .ok (e.afterBytes v len, op.output (e.keystream v len) p) := by
  have inputs : (combineInputs op.mode len p).length = len := combineOp_inputs_length hp
  have bytes := combineLoop_eq_zipWith (v := v) (e := e) (bs := combineInputs op.mode len p) (by rwa [inputs])
  rw [inputs, zipWith_combineInputs op (keystream_length v e len)] at bytes
  rw [commandRule_combineOp, Engine.combine, requireKeyed_of_keyed _ hk, hov, if_neg Bool.false_ne_true]
  dsimp only
  rw [bytes, combineLoop_eq_afterBytes, inputs]

theorem combineOp_of_overflows {v : Variant} {op : CombineOp} {len : Nat} {e : Engine} (hk : e.keyed = true)
    (hov : e.overflows v len = true) (p : List Byte) :
    commandRule v e (op.instr len) p = .error .counterOverflow := by
  rw [commandRule_combineOp, Engine.combine, requireKeyed_of_keyed _ hk, if_pos hov]

/-- All that a COMBINE answered with `OK` did. -/
theorem exec_combineOp_ok {op : CombineOp} {len : Nat} {s t : State} {out : List Byte}
    (hx : exec (op.instr len) s = .next t) (hr : t.response = some ⟨.ok, out⟩) :
    s.payload.length = payloadLen (op.instr len) ∧ s.engine.keyed = true ∧
      s.engine.overflows s.variant len = false ∧
      out = op.output (s.engine.keystream s.variant len) s.payload ∧
      t = s.respond ⟨.ok, out⟩ (s.engine.afterBytes s.variant len) := by
  obtain ⟨hne, -, -⟩ | ⟨-, hp, hrule⟩ := exec_answer hx hr
  · exact absurd rfl hne
  obtain ⟨hk, bs, hlen, hov, -⟩ := combineOp_ok_loop hrule hp
  rw [hlen] at hov
  have fits := exec_of_ok hp (combineOp_of_fits hk hp hov)
  rw [fits] at hx
  cases hx
  cases hr
  exact ⟨hp, hk, hov, rfl, rfl⟩

/-! ### `OverflowCheck` (43_keystream_combiner.md R167) -/

theorem hasBlocksFor_iff {v : Variant} {e : Engine} {len : Nat} : e.HasBlocksFor v len ↔ e.overflows v len = false := by
  cases v with
  | original => exact ⟨fun _ => rfl, fun _ hv => nomatch hv⟩
  | ietf => exact ⟨fun h => overflows_ietf.2 (h rfl), fun h _ => overflows_ietf.1 h⟩

theorem overflows_zero (v : Variant) (e : Engine) : e.overflows v 0 = false := by
  cases v with
  | original => rfl
  | ietf => exact overflows_ietf.2 (Nat.zero_le _)

theorem blocksNeeded_mono (e : Engine) {m n : Nat} (h : m ≤ n) : e.blocksNeeded m ≤ e.blocksNeeded n := by
  simp only [Engine.blocksNeeded]
  split <;> split <;> omega

/-- A request that passes the check passes it for fewer bytes. -/
theorem overflows_of_le {v : Variant} {e : Engine} {m n : Nat} (h : m ≤ n) (hov : e.overflows v n = false) :
    e.overflows v m = false := by
  cases v with
  | original => rfl
  | ietf => exact overflows_ietf.2 ((blocksNeeded_mono e h).trans (overflows_ietf.1 hov))

/-- After `m` bytes of a request that passes the check the other `n` still pass it. -/
theorem afterBytes_overflows {v : Variant} {m n : Nat} {e : Engine} (hov : e.overflows v (m + n) = false) :
    (e.afterBytes v m).overflows v n = false := by
  induction m generalizing e with
  | zero => rwa [Nat.zero_add] at hov
  | succ m ih =>
    rw [Nat.succ_add] at hov
    obtain ⟨-, -, hov'⟩ := nextKeyByte_of_fits hov
    exact ih hov'

theorem exec_combineOp_overflow_iff {op : CombineOp} {len : Nat} {s : State} (hk : s.engine.keyed = true)
    (hp : s.payload.length = payloadLen (op.instr len)) :
    exec (op.instr len) s = .next (s.respond ⟨.counterOverflow, []⟩ s.engine) ↔
      s.engine.overflows s.variant len = true := by
  refine ⟨fun hx => ?_, fun hov => exec_of_error hp (combineOp_of_overflows hk hov _)⟩
  by_contra hov
  rw [exec_of_ok hp (combineOp_of_fits hk hp (Bool.eq_false_iff.2 hov))] at hx
  have answer := congrArg State.response (Host.Outcome.next.inj hx)
  cases answer

theorem overflows_iff {v : Variant} {e : Engine} {len : Nat} :
    e.overflows v len = true ↔ v = .ietf ∧ e.blocksLeft < e.blocksNeeded len := by
  cases v <;> simp [Engine.overflows]

theorem blocksNeeded_pos_iff {e : Engine} {len : Nat} : 0 < e.blocksNeeded len ↔ e.avail < len := by
  rw [Engine.blocksNeeded]
  split <;> omega

/-- An exhausted counter has no block left (43_keystream_combiner.md R168). -/
theorem blocksLeft_of_exh {e : Engine} (h : e.exh = true) : e.blocksLeft = 0 := by
  rw [Engine.blocksLeft, ctr_ietf_of_exh h]
  omega

/-! ### The counter and the cursor (43_keystream_combiner.md R164, R165, R172) -/

theorem afterBytes_ctr_ietf {n : Nat} {e : Engine} (hov : e.overflows .ietf n = false) :
    (e.afterBytes .ietf n).ctr .ietf = e.ctr .ietf + e.blocksNeeded n := by
  have count := combineLoop_ctr_ietf (bs := List.replicate n none) (e := e) (by rwa [List.length_replicate])
  rwa [List.length_replicate] at count

/-- The ORIGINAL counter counts the blocks a request needs, modulo `2^64`. -/
theorem afterBytes_ctr_original (n : Nat) (e : Engine) :
    (e.afterBytes .original n).ctr .original = (e.ctr .original + e.blocksNeeded n) % 2 ^ 64 := by
  have count : ((e.afterBytes .original n).ctr .original + (e.afterBytes .original n).blocksNeeded 0) % 2 ^ 64 =
      (e.ctr .original + e.blocksNeeded n) % 2 ^ 64 := by
    refine afterBytes_induction (v := .original)
      (P := fun m f => (f.ctr .original + f.blocksNeeded m) % 2 ^ 64 = (e.ctr .original + e.blocksNeeded n) % 2 ^ 64)
      ?_ ?_ rfl rfl
    · intro m f h hf
      rw [← hf, consumeAt_ctr, blocksNeeded_consumeAt h]
    · intro m f hpos _ hf
      rw [← hf, consumeAt_ctr, refill_ctr_original, blocksNeeded_of_empty .original hpos]
      omega
  rwa [blocksNeeded_zero, Nat.add_zero, Nat.mod_eq_of_lt (ctr_original_lt _)] at count

/-- The cursor after the last of `n` bytes: in the buffer as it stands, or in the last block made. -/
def Engine.cursorAfter (e : Engine) (n : Nat) : Nat :=
  if n ≤ 64 - e.pos.val then e.pos.val + n else (n - (64 - e.pos.val) - 1) % 64 + 1

theorem cursorAfter_zero (e : Engine) : e.cursorAfter 0 = e.pos.val := rfl

theorem cursorAfter_consumeAt {e : Engine} (h : e.pos.val < 64) (n : Nat) :
    (e.consumeAt ⟨e.pos.val, h⟩).2.cursorAfter n = e.cursorAfter (n + 1) := by
  have cursor : (e.consumeAt ⟨e.pos.val, h⟩).2.pos.val = e.pos.val + 1 := rfl
  simp only [Engine.cursorAfter, cursor]
  split <;> split <;> omega

theorem cursorAfter_refill (v : Variant) {e : Engine} (h : e.pos = 64) (n : Nat) :
    ((e.refill v).consumeAt 0).2.cursorAfter n = e.cursorAfter (n + 1) := by
  have empty : e.pos.val = 64 := by rw [h]; rfl
  have cursor : ((e.refill v).consumeAt 0).2.pos.val = 1 := rfl
  simp only [Engine.cursorAfter, empty, cursor]
  split <;> split <;> omega

theorem afterBytes_pos {v : Variant} {n : Nat} {e : Engine} (hov : e.overflows v n = false) :
    (e.afterBytes v n).pos.val = e.cursorAfter n := by
  rw [← cursorAfter_zero]
  exact afterBytes_induction (P := fun m f => f.cursorAfter m = e.cursorAfter n)
    (fun m f h hf => (cursorAfter_consumeAt h m).trans hf)
    (fun m f h _ hf => (cursorAfter_refill v h m).trans hf) hov rfl

/-! ### Undoing a COMBINE (43_keystream_combiner.md R170, R171) -/

/-- The exclusive-or with the same bytes twice gives the input back. -/
theorem zipWith_xor_cancel {ks p : List Byte} (h : ks.length = p.length) :
    List.zipWith (· ^^^ ·) ks (List.zipWith (· ^^^ ·) ks p) = p := by
  refine List.ext_getElem (by simp [h]) fun i _ _ => ?_
  simp

/-- The output determines the keystream bytes used. -/
theorem CombineOp.output_injective {op : CombineOp} {len : Nat} {ks ks' p : List Byte}
    (hp : p.length = payloadLen (op.instr len)) (hks : ks.length = len) (hks' : ks'.length = len)
    (h : op.output ks p = op.output ks' p) : ks = ks' := by
  have undo (l : List Byte) (hl : l.length = p.length) :
      List.zipWith (· ^^^ ·) p (List.zipWith (· ^^^ ·) l p) = l := by
    rw [List.zipWith_comm_of_comm (fun x y => BitVec.xor_comm x y) (l := l)]
    exact zipWith_xor_cancel hl.symm
  cases op with
  | enc | dec =>
    have again := congrArg (List.zipWith (· ^^^ ·) p) h
    exact (undo ks (hks.trans hp.symm)).symm.trans (again.trans (undo ks' (hks'.trans hp.symm)))
  | gen => exact h

theorem ctr_fits_of_not_exh (v : Variant) {e : Engine} (h : e.exh = false) : e.ctr v < 2 ^ ctrBits v := by
  cases v with
  | original => exact ctr_original_lt e
  | ietf =>
    rw [ctr_ietf_of_not_exh h]
    exact e.w[12].isLt

theorem blockIndex_bytesLe64 {v : Variant} {n : Nat} (h : n < 2 ^ ctrBits v) :
    blockIndex (bytesLe64 (BitVec.ofNat 64 n)) = n := by
  have operand : le64 (bytesLe64 (BitVec.ofNat 64 n)) 0 = BitVec.ofNat 64 n := by
    simpa using le64_bytesLe64_append (BitVec.ofNat 64 n) []
  have small : n < 2 ^ 64 := h.trans_le (Nat.pow_le_pow_right (by decide) (by cases v <;> decide))
  rw [blockIndex, operand, BitVec.toNat_ofNat, Nat.mod_eq_of_lt small]

/-- SEEK has no check beyond these; `seek_ok` says what it leaves. -/
theorem seek_of_fits {v : Variant} {e : Engine} {p : List Byte} (hk : e.keyed = true)
    (hn : blockIndex p < 2 ^ ctrBits v) :
    e.seek v p = .ok ({ e.setCtr v (blockIndex p) with pos := 64 }, []) := by
  rw [Engine.seek, requireKeyed_of_keyed _ hk, counterFits_iff.2 hn]
  rfl

/-- Where the buffer was empty, a SEEK to the block a COMBINE began at succeeds and returns to a block that differs in
consumed bytes only. -/
theorem seek_after_combine (v : Variant) (n : Nat) {e : Engine} (hk : e.keyed = true) (hpos : e.pos = 64)
    (hx : e.exh = false) :
    ∃ f, (e.afterBytes v n).seek v (bytesLe64 (BitVec.ofNat 64 (e.ctr v))) = .ok (f, []) ∧ e.SameButConsumed f := by
  have fits : e.ctr v < 2 ^ ctrBits v := ctr_fits_of_not_exh v hx
  have index := blockIndex_bytesLe64 fits
  have words : e.w = counterWords v (e.afterBytes v n).w (e.ctr v) := by
    rw [counterWords_afterBytes, counterWords_ctr]
  refine ⟨_, seek_of_fits ((afterBytes_keyed v n e).trans hk) (by rwa [index]), ?_⟩
  rw [index]
  exact sameButConsumed_of_empty words (by simp) (by simp) hx hpos rfl

end Sys2Proof.Machine

/-! ### The obligations -/

namespace Sys2Proof.Proofs

open Sys2Proof.Machine

/-- Settles O36: the counter moves by one, and the frame is that of `Engine.advance`. -/
theorem advanceCountsOneBlock : Obligations.AdvanceCountsOneBlock := by
  intro v e
  refine ⟨?_, ?_, advance_frame v e, advance_rounds v e, advance_keyed v e, advance_kb v e, advance_pos v e⟩
  · rintro rfl
    exact ⟨advance_ctr_original e, advance_exh_original e⟩
  · rintro rfl hx
    refine ⟨advance_ctr_ietf (ctr_fits_of_not_exh .ietf hx), ?_⟩
    rcases advance_ietf e with ⟨top, hw, hx'⟩ | ⟨notTop, hw, hx'⟩
    · exact ⟨iff_of_true hx' top, fun _ => hw⟩
    · have clear : ¬ (e.advance .ietf).exh = true := by rw [hx', hx]; exact Bool.false_ne_true
      exact ⟨iff_of_false clear notTop, fun h => absurd h clear⟩

/-- Settles O33: no bytes need no block and leave the block after 0 bytes, which is the block. -/
theorem combineOfNothingChangesNothing : Obligations.CombineOfNothingChangesNothing := by
  intro op s hk hp
  have hlen : s.payload.length = payloadLen (op.instr 0) := by rw [hp]; cases op <;> rfl
  have nothing : op.output [] s.payload = [] := by cases op <;> rfl
  have hx := exec_of_ok hlen (combineOp_of_fits hk hlen (overflows_zero s.variant s.engine))
  have no_bytes : s.engine.keystream s.variant 0 = [] := rfl
  rwa [no_bytes, nothing] at hx

/-- Settles O30: the request passes `OverflowCheck`, and the block left has the sequence without its first `LEN` bytes. -/
theorem combineEmitsTheKeystream : Obligations.CombineEmitsTheKeystream := by
  intro op len s hk hp hblocks
  have hov := hasBlocksFor_iff.1 hblocks
  have rest := afterBytes_dropsKeystream hov
  exact ⟨s.engine.afterBytes s.variant len, exec_of_ok hp (combineOp_of_fits hk hp hov), fun t => (rest t).1,
    fun t _ => (rest t).2, combineLoop_frame s.variant _ s.engine, afterBytes_rounds _ _ _,
    (afterBytes_keyed _ _ _).trans hk⟩

/-- Settles O34, by the check in numbers; an exhausted counter has no block left. -/
theorem overflowExactlyWhenBlocksRunOut : Obligations.OverflowExactlyWhenBlocksRunOut := by
  intro op len s hk hp
  have raised := exec_combineOp_overflow_iff hk hp
  refine ⟨raised.trans overflows_iff, fun hv hx => raised.trans (overflows_iff.trans ?_)⟩
  rw [blocksLeft_of_exh hx, blocksNeeded_pos_iff]
  exact and_iff_right hv

/-- Settles O35, by what each byte adds to the counter and to the cursor. -/
theorem combineCountsBlocks : Obligations.CombineCountsBlocks := by
  intro op len s t out hx hr
  obtain ⟨-, -, hov, -, rfl⟩ := exec_combineOp_ok hx hr
  refine ⟨fun hv => ?_, fun hv => ?_, afterBytes_pos hov⟩
  · rw [respond_engine, hv, afterBytes_ctr_original]
  · rw [hv] at hov
    rw [respond_engine, hv, afterBytes_ctr_ietf hov]

/-- Settles O31: the first command leaves the sequence without its bytes and the check passed for the second, and the block
after both depends on the number of bytes alone. -/
theorem combineSplits : Obligations.CombineSplits := by
  intro op op1 op2 l1 l2 p p1 p2 ks s t hp hp1 hp2 hks hx hr
  obtain ⟨-, hk, hov, hout, rfl⟩ := exec_combineOp_ok hx hr
  have hov1 : s.engine.overflows s.variant l1 = false := overflows_of_le (Nat.le_add_right l1 l2) hov
  have hov2 := afterBytes_overflows hov
  have hks' : ks = s.engine.keystream s.variant l1 ++ (s.engine.afterBytes s.variant l1).keystream s.variant l2 :=
    (CombineOp.output_injective hp hks (keystream_length _ _ _) hout).trans
      (keystream_add (afterBytes_dropsKeystream hov1) l2)
  have hx1 := exec_of_ok (s := { s with payload := p1 }) hp1 (combineOp_of_fits hk hp1 hov1)
  refine ⟨_, _, hx1, ?_, exec_of_ok hp2 (combineOp_of_fits ((afterBytes_keyed _ _ _).trans hk) hp2 hov2), ?_, ?_⟩
  · rw [hks', List.take_left' (keystream_length _ _ _)]
    rfl
  · rw [hks', List.drop_left' (keystream_length _ _ _)]
    rfl
  · exact (afterBytes_add _ _ _ _).symm

/-- Settles O32: the same keystream bytes twice cancel, and seeking back returns to a block that cannot be told apart. -/
theorem combineInvolution : Obligations.CombineInvolution := by
  intro len s t c hx hr
  obtain ⟨hp, hk, hov, hout, rfl⟩ := exec_combineOp_ok (op := .enc) hx hr
  have hp' : s.payload.length = len := hp
  have hc : c.length = payloadLen (CombineOp.dec.instr len) := by
    simp [hout, CombineOp.output, CombineOp.instr, payloadLen, hp']
  have undo : CombineOp.dec.output (s.engine.keystream s.variant len) c = s.payload :=
    hout ▸ zipWith_xor_cancel ((keystream_length _ _ _).trans hp'.symm)
  have hrule : commandRule s.variant s.engine (CombineOp.dec.instr len) c =
      .ok (s.engine.afterBytes s.variant len, s.payload) := by rw [combineOp_of_fits hk hc hov, undo]
  have hdec := exec_of_ok (i := CombineOp.dec.instr len) (s := { s with payload := c }) hc hrule
  refine ⟨⟨_, hdec, rfl⟩, fun hpos hexh => ?_⟩
  obtain ⟨f, hseek, hsame⟩ := seek_after_combine s.variant len hk hpos hexh
  have same := commandRule_same (v := s.variant) hsame (CombineOp.dec.instr len) c
  rw [hrule] at same
  obtain ⟨f', hrule', -⟩ := sameResult_ok same
  exact ⟨_, _, exec_of_ok (i := .seek) rfl hseek, exec_of_ok (i := CombineOp.dec.instr len) hc hrule', rfl⟩

end Sys2Proof.Proofs
end

section
/-! PROOFS. The seek_controller: when SEEK completes and when it fails, and which keystream bytes an empty buffer at a chosen
block gives (44_seek.md). -/

namespace Sys2Proof.Machine

/-! ### The range check (44_seek.md R201) -/

/-- Every block index is a 64-bit number, so in ORIGINAL all of them fit. -/
theorem blockIndex_fits {v : Variant} {p : List Byte} (h : v = .ietf → blockIndex p < 2 ^ 32) :
    blockIndex p < 2 ^ ctrBits v := by
  cases v with
  | original => exact (le64 p 0).isLt
  | ietf => exact h rfl

theorem seek_of_not_fits {v : Variant} {e : Engine} {p : List Byte} (hk : e.keyed = true)
    (hn : 2 ^ ctrBits v ≤ blockIndex p) : e.seek v p = .error .invalidSeek := by
  have hfits : counterFits v (blockIndex p) = false :=
    Bool.eq_false_iff.2 fun h => Nat.not_lt.2 hn (counterFits_iff.1 h)
  rw [Engine.seek, requireKeyed_of_keyed _ hk, hfits]
  rfl

/-! ### The keystream from a block boundary (43_keystream_combiner.md R170, 44_seek.md R204) -/

/-- On an empty buffer byte `t` of the `m`-th block of the sequence is that of block `CTR + m`. -/
theorem keystreamByte_of_empty (v : Variant) {e : Engine} (hpos : e.pos = 64) (m : Nat) {t : Nat} (ht : t < 64) :
    e.keystreamByte v (64 * m + t) = (e.blockAt v (e.ctr v + m))[t] := by
  have beyond : 64 * m + t = e.avail + (64 * m + t) := by simp [Engine.avail, hpos]
  have quotient : (64 * m + t) / 64 = m := by omega
  have remainder : (64 * m + t) % 64 = t := by omega
  simp only [keystreamByte_of_beyond v beyond, quotient, remainder]

/-- On an empty buffer the 64 bytes after the first `m` blocks of the sequence are block `CTR + m`. -/
theorem keystream_drop_of_empty (v : Variant) {e : Engine} (hpos : e.pos = 64) (m : Nat) :
    (e.keystream v (64 * m + 64)).drop (64 * m) = (e.blockAt v (e.ctr v + m)).toList := by
  refine List.ext_getElem (by simp) fun t _ ht => ?_
  rw [Vector.length_toList] at ht
  simpa [Engine.keystream] using keystreamByte_of_empty v hpos m ht

/-- An empty buffer costs a block for each 64 bytes. -/
theorem blocksNeeded_blocks_of_empty {e : Engine} (hpos : e.pos = 64) (m : Nat) : e.blocksNeeded (64 * m) = m := by
  have none_left : e.avail = 0 := by simp [Engine.avail, hpos]
  rw [Engine.blocksNeeded, none_left]
  split <;> omega

/-- On an empty buffer whole blocks pass `OverflowCheck` while the last of them fits the counter
(43_keystream_combiner.md R167). -/
theorem overflows_blocks_of_empty {v : Variant} {e : Engine} (hpos : e.pos = 64) {m : Nat}
    (h : e.ctr v + m < 2 ^ ctrBits v) : e.overflows v (64 * m + 64) = false := by
  cases v with
  | original => rfl
  | ietf =>
    simp only [ctrBits] at h
    rw [← Nat.mul_succ, overflows_ietf, blocksNeeded_blocks_of_empty hpos]
    omega

/-- In mode GEN the loop emits the keystream itself (43_keystream_combiner.md R163). -/
theorem combineLoop_gen {v : Variant} {n : Nat} {e : Engine} (hov : e.overflows v n = false) :
    (Engine.combineLoop v (List.replicate n none) e).1 = e.keystream v n := by
  have bytes := combineLoop_eq_zipWith (bs := List.replicate n none) (by rwa [List.length_replicate])
  rw [List.length_replicate] at bytes
  exact bytes.trans (zipWith_combineInputs .gen (keystream_length v e n) [])

/-! ### The block that a SEEK leaves (44_seek.md R200) -/

/-- What `seek_of_fits` leaves: the counter at `n`, the buffer empty. -/
abbrev Engine.sought (v : Variant) (n : Nat) (e : Engine) : Engine := { e.setCtr v n with pos := 64 }

theorem sought_ctr {v : Variant} {n : Nat} (e : Engine) (h : n < 2 ^ ctrBits v) : (e.sought v n).ctr v = n :=
  ctr_setCtr e h

/-- The block of an index does not depend on where the counter stands. -/
theorem sought_blockAt (v : Variant) (n : Nat) (e : Engine) (m : Nat) : (e.sought v n).blockAt v m = e.blockAt v m :=
  congrArg (block · e.rounds) (counterWords_counterWords v e.w n m)

/-- From block `n` on, `m` blocks and one more pass `OverflowCheck` while block `n + m` fits the counter, and the last of them
is block `n + m`. -/
theorem sought_keystream {v : Variant} {n m : Nat} (e : Engine) (h : n + m < 2 ^ ctrBits v) :
    (e.sought v n).overflows v (64 * m + 64) = false ∧
      ((e.sought v n).keystream v (64 * m + 64)).drop (64 * m) = (e.blockAt v (n + m)).toList := by
  have ctr := sought_ctr e ((Nat.le_add_right n m).trans_lt h)
  refine ⟨overflows_blocks_of_empty rfl (by rwa [ctr]), ?_⟩
  rw [keystream_drop_of_empty v rfl, ctr, sought_blockAt]

end Sys2Proof.Machine

/-! ### The obligations -/

namespace Sys2Proof.Proofs

open Sys2Proof.Machine

/-- Settles O37: both checks pass, and `seek_writes` says what a SEEK that succeeds leaves. -/
theorem seekSetsTheCounter : Obligations.SeekSetsTheCounter := by
  intro s hk hp hn
  have hrule := seek_of_fits hk (blockIndex_fits hn)
  obtain ⟨hframe, hctr, hrounds, hkeyed, hexh, hkb, hpos⟩ := seek_writes hrule
  exact ⟨_, exec_of_ok (i := .seek) hp hrule, hctr, hexh, hpos, hframe, hrounds, hkeyed.trans hk, hkb⟩

/-- Settles O38: the range check is the only one left on a keyed block, and a 64-bit index always fits in ORIGINAL. -/
theorem seekRangeCheck : Obligations.SeekRangeCheck := by
  intro s hk hp
  refine ⟨fun hv hn => ?_, fun hn => ?_⟩
  · have tooLarge : 2 ^ ctrBits s.variant ≤ blockIndex s.payload := by rw [hv]; exact Nat.le_of_pred_lt hn
    exact exec_of_error (i := .seek) hp (seek_of_not_fits hk tooLarge)
  · have small : s.variant = .ietf → blockIndex s.payload < 2 ^ 32 := by
      intro hv
      rcases hn with horig | hle
      · rw [hv] at horig
        cases horig
      · exact Nat.lt_of_le_pred (by decide) hle
    exact ⟨_, exec_of_ok (i := .seek) hp (seek_of_fits hk (blockIndex_fits small)), rfl⟩

/-- Settles O39: an error leaves the block as it was, a success writes the counter, `EXH` and the cursor only. -/
theorem seekKeepsTheConfiguration : Obligations.SeekKeepsTheConfiguration := by
  intro s t hx
  rcases exec_cases .seek s with ⟨-, hx'⟩ | ⟨-, ⟨status, -, hx'⟩ | ⟨e, out, hrule, hx'⟩⟩
  all_goals
    rw [hx'] at hx
    cases hx
  · exact ⟨fun _ _ => rfl, rfl, rfl⟩
  · exact ⟨fun _ _ => rfl, rfl, rfl⟩
  · obtain ⟨hframe, -, hrounds, hkeyed, -⟩ := seek_writes hrule
    exact ⟨hframe, hrounds, hkeyed⟩

/-- Settles O40: the 0-th block of the sequence from `k` and the `k`-th of the sequence from 0 are block `k`. -/
theorem randomAccess : Obligations.RandomAccess := by
  intro k s hk hfit
  constructor
  · obtain ⟨hov, hblock⟩ := sought_keystream (m := 0) s.engine hfit
    have index := blockIndex_bytesLe64 hfit
    have hrule := seek_of_fits (p := bytesLe64 (BitVec.ofNat 64 k)) hk (by rwa [index])
    rw [index] at hrule
    refine ⟨_, _, exec_of_ok (i := .seek) rfl hrule,
      exec_of_ok (i := CombineOp.gen.instr 64) rfl (combineOp_of_fits hk rfl hov), ?_⟩
    exact congrArg (fun out => some (⟨.ok, out⟩ : Response)) hblock
  · obtain ⟨hov, hblock⟩ := sought_keystream (n := 0) (m := k) s.engine (by rwa [Nat.zero_add])
    rw [combineLoop_gen hov, hblock, Nat.zero_add]

end Sys2Proof.Proofs
end

section
/-! PROOFS. Errors: a command that fails changes nothing, and the first check that fails decides the status
(60_exceptions.md R224, R225). -/

namespace Sys2Proof.Machine

/-- A command that ends with an error leaves the block as it was and has no output (60_exceptions.md R224). -/
theorem finish_failed {s : State} {result : CommandResult} {r : Response}
    (hr : (s.finish result).response = some r) (hne : r.status ≠ .ok) :
    (s.finish result).engine = s.engine ∧ r.out = [] := by
  cases result with
  | ok success =>
    cases hr
    exact absurd rfl hne
  | error status =>
    cases hr
    exact ⟨rfl, rfl⟩

/-- The checks that come before every rule: the header is legal and the payload has its length (60_exceptions.md R225). -/
theorem transactRule_of_no_command {hdr : Word} {p : List Byte} (h : ∀ i, decode hdr = some i → p.length ≠ payloadLen i)
    (v : Variant) (e : Engine) : transactRule v e hdr p = .error .illegalCommand := by
  cases hd : decode hdr with
  | none => exact transactRule_of_illegal hd v e p
  | some i => exact transactRule_of_length_ne hd (h i hd) v e

end Sys2Proof.Machine

/-! ### The obligations -/

namespace Sys2Proof.Proofs

open Sys2Proof.Machine

/-- Settles O19: a transaction ends in `State.finish`, where an error keeps nothing. -/
theorem failedCommandsChangeNothing : Obligations.FailedCommandsChangeNothing := by
  intro hdr p s t r hx hr hne
  rw [transact_eq_finish] at hx
  cases hx
  exact finish_failed hr hne

/-- Settles O20: the checks of header, length and key stand before every rule, and then each rule makes its own in order. -/
theorem errorPriority : Obligations.ErrorPriority := by
  refine ⟨fun hdr p s h => ?illegal, fun i s hp hi hk => ?notKeyed, fun rnd len s hp => ⟨fun hLen => ?keyLength,
    fun hLen hRnd => ?rounds⟩, fun len s hp hk => ⟨fun hLen => ?ivLength, fun hLen hn => ?initialBlock⟩,
    fun op len s hp hk hblocks => ?overflow, fun s hp hk hn => ?blockIndex⟩
  case illegal => rw [transact_eq_finish, transactRule_of_no_command h, finish_error]
  case notKeyed => exact exec_of_error hp (commandRule_of_not_keyed hi hk s.payload)
  case keyLength => exact exec_of_error hp (setkey_of_bad_length hLen rnd s.engine s.payload)
  case rounds => exact exec_of_error hp (setkey_of_bad_rounds hLen hRnd s.engine s.payload)
  case ivLength => exact exec_of_error hp (resync_of_bad_length hk hLen s.payload)
  case initialBlock => exact exec_of_error hp (resync_of_not_fits hk hLen hn)
  case overflow =>
    have hov : s.engine.overflows s.variant len = true := Bool.of_not_eq_false (mt hasBlocksFor_iff.2 hblocks)
    exact exec_of_error hp (combineOp_of_overflows hk hov s.payload)
  case blockIndex => exact exec_of_error (i := .seek) hp (seek_of_not_fits hk hn)

end Sys2Proof.Proofs
end

section
/-! PROOFS. An incomplete command: what the block does while it waits for the host's bytes, and when reset comes instead of
them (70_reset_and_hazards.md R260, R263, R272). -/

namespace Sys2Proof.Machine

/-- Any four bytes are read as a header; what the payload takes comes after them (30_encoding.md R71). -/
theorem fetch_of_four_bytes (a b c d : Byte) (ev : List HostEvent) :
    fetch (.byte a :: .byte b :: .byte c :: .byte d :: ev) = fetchPayload (le32 [a, b, c, d] 0) ev := rfl

/-- What an incomplete command lacks: a byte of its header, or a byte of the payload that the block reads after it. -/
theorem IncompleteCommand.short_or_lacks_payload {bs : List Byte} (h : IncompleteCommand bs) :
    bs.length < 4 ∨ ∃ a b c d p, bs = a :: b :: c :: d :: p ∧ p.length < payloadToRead (le32 [a, b, c, d] 0) := by
  obtain hshort | ⟨i, hd, hlen⟩ := h
  · exact .inl hshort
  · match bs with
    | [] | [_] | [_, _] | [_, _, _] => exact .inl (by simp)
    | a :: b :: c :: d :: p =>
      have hread : payloadToRead (le32 [a, b, c, d] 0) = payloadLen i := payloadToRead_of_decode hd
      simp only [List.length_cons] at hlen
      exact .inr ⟨a, b, c, d, p, rfl, by omega⟩

/-! ### The host has sent no more (R263, R272) -/

theorem fetch_of_short_header {bs : List Byte} (h : bs.length < 4) : fetch (bs.map .byte) = .noHeader := by
  cases bs with
  | nil => rfl
  | cons b bs => rw [List.map_cons, fetch_of_byte, ← List.map_cons, takeBytes_starved h]

theorem fetchPayload_starved {hdr : Word} {p : List Byte} (h : p.length < payloadToRead hdr) :
    fetchPayload hdr (p.map .byte) = .noPayload := by
  rw [fetchPayload, takeBytes_starved h]

/-- The block waits for the rest of an incomplete command. -/
theorem IncompleteCommand.fetch_eq {bs : List Byte} (h : IncompleteCommand bs) :
    fetch (bs.map .byte) = if bs.length < 4 then .noHeader else .noPayload := by
  obtain hshort | ⟨a, b, c, d, p, rfl, hp⟩ := h.short_or_lacks_payload
  · rw [if_pos hshort, fetch_of_short_header hshort]
  · have hfour : ¬ (a :: b :: c :: d :: p).length < 4 := by simp
    rw [if_neg hfour]
    exact (fetch_of_four_bytes a b c d (p.map .byte)).trans (fetchPayload_starved hp)

/-! ### Reset comes before the rest (R260) -/

theorem fetch_of_short_header_reset {bs : List Byte} (hne : bs ≠ []) (h : bs.length < 4) (k : Nat)
    (rest : List HostEvent) : fetch (bs.map .byte ++ .reset k :: rest) = .resetMidCommand rest := by
  cases bs with
  | nil => exact absurd rfl hne
  | cons b bs =>
    rw [List.map_cons, List.cons_append, fetch_of_byte, ← List.cons_append, ← List.map_cons, takeBytes_interrupted k rest h]

theorem fetchPayload_interrupted {hdr : Word} {p : List Byte} (h : p.length < payloadToRead hdr) (k : Nat)
    (rest : List HostEvent) : fetchPayload hdr (p.map .byte ++ .reset k :: rest) = .resetMidCommand rest := by
  rw [fetchPayload, takeBytes_interrupted k rest h]

/-- Reset abandons a command of which some bytes, and not all of them, have come. -/
theorem IncompleteCommand.fetch_reset {bs : List Byte} (h : IncompleteCommand bs) (hne : bs ≠ []) (k : Nat)
    (rest : List HostEvent) : fetch (bs.map .byte ++ .reset k :: rest) = .resetMidCommand rest := by
  obtain hshort | ⟨a, b, c, d, p, rfl, hp⟩ := h.short_or_lacks_payload
  · exact fetch_of_short_header_reset hne hshort k rest
  · exact (fetch_of_four_bytes a b c d (p.map .byte ++ .reset k :: rest)).trans (fetchPayload_interrupted hp k rest)

/-- Reset in mid-command comes after the whole of the last response. -/
theorem takeReset_mid_command_sent (s : State) (rest : List HostEvent) :
    (s.takeReset s.responseBytes.length rest).sent = s.output := by
  rw [takeReset_sent, List.take_length, State.output]

end Sys2Proof.Machine

/-! ### The obligations -/

namespace Sys2Proof.Proofs

open Sys2Proof.Machine

/-- Settles O11: the block finds a header or a payload cut short, and each is its own fault. -/
theorem missingHostBytesStopTheStep : Obligations.MissingHostBytesStopTheStep := by
  intro bs s hin hbs
  rw [step, hin, hbs.fetch_eq]
  by_cases hshort : bs.length < 4
  · rw [if_pos hshort, if_pos hshort]
  · rw [if_neg hshort, if_neg hshort]

/-- Settles O12: the reset comes first on the stream, or after some bytes of a command, when all of the last response is
sent. -/
theorem resetAbandonsTheCommandInProgress : Obligations.ResetAbandonsTheCommandInProgress := by
  intro bs delivered rest s hin hbs
  by_cases hidle : bs = []
  · subst hidle
    rw [if_pos rfl, step, hin]
    rfl
  · rw [if_neg hidle, step, hin, hbs.fetch_reset hidle, ← takeReset_mid_command_sent s rest]
    rfl

end Sys2Proof.Proofs
end
